-- ==== Sys2Proof/Word.lean ====
section
/-! DEFINITION. The word types of the CHIP-8 core (spec/00_scope.md R14-R18, R24). -/

namespace Sys2Proof

/-- A data register, a timer or a memory byte: 8 bits (R14, R18, R80). -/
abbrev Byte := BitVec 8

/-- An instruction word, I, PC or a stack entry: 16 bits (R15, R16, R17, R120). -/
abbrev Word := BitVec 16

/-- A general-register index, V0 to VF (R42). -/
abbrev Reg := Fin 16

/-- A logical key code, 0 to 15 (R20). -/
abbrev Key := Fin 16

end Sys2Proof
end

