-- ==== Sys2Proof/Syntax.lean ====
section
/-! DEFINITION. The instructions: one constructor per row of spec/opcode_table.json (spec/30_encoding.md R125), in the
table's order, with the operands its pattern names (R121-R123). -/

namespace Sys2Proof

/-- The 35 instructions. `x` and `y` are register indices, `nn` an immediate byte, `nnn` an address, `n` a row count. -/
inductive Instr where
  /-- 0000 -/
  | halt
  /-- 00E0 -/
  | cls
  /-- 00EE -/
  | ret
  /-- 1nnn -/
  | jp (nnn : BitVec 12)
  /-- 2nnn -/
  | call (nnn : BitVec 12)
  /-- 3xnn -/
  | seImm (x : Reg) (nn : Byte)
  /-- 4xnn -/
  | sneImm (x : Reg) (nn : Byte)
  /-- 5xy0 -/
  | seReg (x y : Reg)
  /-- 6xnn -/
  | ldImm (x : Reg) (nn : Byte)
  /-- 7xnn -/
  | addImm (x : Reg) (nn : Byte)
  /-- 8xy0 -/
  | ldReg (x y : Reg)
  /-- 8xy1 -/
  | orReg (x y : Reg)
  /-- 8xy2 -/
  | andReg (x y : Reg)
  /-- 8xy3 -/
  | xorReg (x y : Reg)
  /-- 8xy4 -/
  | addReg (x y : Reg)
  /-- 8xy5 -/
  | sub (x y : Reg)
  /-- 8xy6; `y` is ignored but kept, so that the word round-trips (R129) -/
  | shr (x y : Reg)
  /-- 8xy7 -/
  | subn (x y : Reg)
  /-- 8xyE; `y` is ignored but kept, so that the word round-trips (R129) -/
  | shl (x y : Reg)
  /-- 9xy0 -/
  | sneReg (x y : Reg)
  /-- Annn -/
  | ldI (nnn : BitVec 12)
  /-- Bnnn -/
  | jpV0 (nnn : BitVec 12)
  /-- Cxnn -/
  | rnd (x : Reg) (nn : Byte)
  /-- Dxyn; the row count is a plain number, bounded by WellFormed (log entry 6) -/
  | drw (x y : Reg) (n : Nat)
  /-- Ex9E -/
  | skp (x : Reg)
  /-- ExA1 -/
  | sknp (x : Reg)
  /-- Fx07 -/
  | ldVxDt (x : Reg)
  /-- Fx0A -/
  | ldVxK (x : Reg)
  /-- Fx15 -/
  | ldDtVx (x : Reg)
  /-- Fx18 -/
  | ldStVx (x : Reg)
  /-- Fx1E -/
  | addIVx (x : Reg)
  /-- Fx29 -/
  | ldFVx (x : Reg)
  /-- Fx33 -/
  | ldBVx (x : Reg)
  /-- Fx55 -/
  | ldMemVx (x : Reg)
  /-- Fx65 -/
  | ldVxMem (x : Reg)
  deriving DecidableEq, Repr

end Sys2Proof
end

