-- ==== Sys2Proof/WellFormed.lean ====
section
/-! DEFINITION. Which instruction terms a word can stand for. The field types already carry the widths of x, y, nn and
nnn (spec/30_encoding.md R121, R122); the one check left is that DRW's row count fits its 4-bit field. -/

namespace Sys2Proof

/-- R122: "`n` is a 4-bit value 0-15 used as the row count of Dxyn". -/
def rowCountOk (n : Nat) : Bool := decide (n < 16)

/-- An instruction some word encodes. -/
def Instr.wf : Instr → Bool
  | .drw _ _ n => rowCountOk n
  | .halt | .cls | .ret | .jp _ | .call _ | .seImm _ _ | .sneImm _ _ | .seReg _ _ | .ldImm _ _ | .addImm _ _
  | .ldReg _ _ | .orReg _ _ | .andReg _ _ | .xorReg _ _ | .addReg _ _ | .sub _ _ | .shr _ _ | .subn _ _ | .shl _ _
  | .sneReg _ _ | .ldI _ | .jpV0 _ | .rnd _ _ | .skp _ | .sknp _ | .ldVxDt _ | .ldVxK _ | .ldDtVx _ | .ldStVx _
  | .addIVx _ | .ldFVx _ | .ldBVx _ | .ldMemVx _ | .ldVxMem _ => true

end Sys2Proof
end

