-- ==== Sys2Proof/Decode.lean ====
section
/-! DEFINITION. The decoder, the encoder and the opcode table (spec/30_encoding.md R120-R128). -/

namespace Sys2Proof

/-- Why bytes are not an instruction. -/
inductive DecodeError where
  /-- R127: the word matches no pattern. -/
  | unrecognizedOpcode (w : Word)
  /-- R120: an instruction is one 16-bit word, and fewer than two bytes were given (log entry 11; no step
  raises it). -/
  | truncated
  deriving DecidableEq, Repr

/-! ### The fields of the word (R121) -/

/-- R90, R91: the high byte stands at the lower address. -/
def wordOfBytes (hi lo : Byte) : Word := hi ++ lo

/-- `w[15:12]`, the opcode group. -/
def fieldOp (w : Word) : BitVec 4 := w.extractLsb' 12 4

/-- `w[11:8]`, a register index. -/
def fieldX (w : Word) : Reg := (w.extractLsb' 8 4).toFin

/-- `w[7:4]`, a register index. -/
def fieldY (w : Word) : Reg := (w.extractLsb' 4 4).toFin

/-- `w[3:0]`, a small count or sub-opcode. -/
def fieldN (w : Word) : BitVec 4 := w.extractLsb' 0 4

/-- `w[7:0]`, an immediate byte or sub-opcode. -/
def fieldNN (w : Word) : Byte := w.extractLsb' 0 8

/-- `w[11:0]`, an address. -/
def fieldNNN (w : Word) : BitVec 12 := w.extractLsb' 0 12

/-! ### The decoder (R125, R126, R127) -/

/-- Group 0: only 0000, 00E0 and 00EE, matched on all 16 bits (R126). -/
def decodeGroup0 (w : Word) : Option Instr :=
  match fieldNNN w with
  | 0x000#12 => some .halt
  | 0x0E0#12 => some .cls
  | 0x0EE#12 => some .ret
  | _ => none

/-- Group 8: the register-register forms, told apart by n. -/
def decodeGroup8 (w : Word) : Option Instr :=
  match fieldN w with
  | 0x0#4 => some (.ldReg (fieldX w) (fieldY w))
  | 0x1#4 => some (.orReg (fieldX w) (fieldY w))
  | 0x2#4 => some (.andReg (fieldX w) (fieldY w))
  | 0x3#4 => some (.xorReg (fieldX w) (fieldY w))
  | 0x4#4 => some (.addReg (fieldX w) (fieldY w))
  | 0x5#4 => some (.sub (fieldX w) (fieldY w))
  | 0x6#4 => some (.shr (fieldX w) (fieldY w))
  | 0x7#4 => some (.subn (fieldX w) (fieldY w))
  | 0xE#4 => some (.shl (fieldX w) (fieldY w))
  | _ => none

/-- Group E: the key skips, told apart by nn. -/
def decodeGroupE (w : Word) : Option Instr :=
  match fieldNN w with
  | 0x9E#8 => some (.skp (fieldX w))
  | 0xA1#8 => some (.sknp (fieldX w))
  | _ => none

/-- Group F: timers, key wait, index and memory forms, told apart by nn. -/
def decodeGroupF (w : Word) : Option Instr :=
  match fieldNN w with
  | 0x07#8 => some (.ldVxDt (fieldX w))
  | 0x0A#8 => some (.ldVxK (fieldX w))
  | 0x15#8 => some (.ldDtVx (fieldX w))
  | 0x18#8 => some (.ldStVx (fieldX w))
  | 0x1E#8 => some (.addIVx (fieldX w))
  | 0x29#8 => some (.ldFVx (fieldX w))
  | 0x33#8 => some (.ldBVx (fieldX w))
  | 0x55#8 => some (.ldMemVx (fieldX w))
  | 0x65#8 => some (.ldVxMem (fieldX w))
  | _ => none

/-- Groups 5 and 9 are legal only with low nibble 0 (R206, R207). -/
def decodeIfN0 (w : Word) (i : Instr) : Option Instr :=
  match fieldN w with
  | 0x0#4 => some i
  | _ => none

/-- The dispatch table: the opcode group first, then the fixed bits inside it. -/
def decodeTable (w : Word) : Option Instr :=
  match fieldOp w with
  | 0x0#4 => decodeGroup0 w
  | 0x1#4 => some (.jp (fieldNNN w))
  | 0x2#4 => some (.call (fieldNNN w))
  | 0x3#4 => some (.seImm (fieldX w) (fieldNN w))
  | 0x4#4 => some (.sneImm (fieldX w) (fieldNN w))
  | 0x5#4 => decodeIfN0 w (.seReg (fieldX w) (fieldY w))
  | 0x6#4 => some (.ldImm (fieldX w) (fieldNN w))
  | 0x7#4 => some (.addImm (fieldX w) (fieldNN w))
  | 0x8#4 => decodeGroup8 w
  | 0x9#4 => decodeIfN0 w (.sneReg (fieldX w) (fieldY w))
  | 0xA#4 => some (.ldI (fieldNNN w))
  | 0xB#4 => some (.jpV0 (fieldNNN w))
  | 0xC#4 => some (.rnd (fieldX w) (fieldNN w))
  | 0xD#4 => some (.drw (fieldX w) (fieldY w) (fieldN w).toNat)
  | 0xE#4 => decodeGroupE w
  | 0xF#4 => decodeGroupF w
  | _ => none

/-- DECODE (R143): the instruction of a word, or the refusal by name. -/
def decodeWord (w : Word) : Except DecodeError Instr :=
  match decodeTable w with
  | some i => .ok i
  | none => .error (.unrecognizedOpcode w)

/-- The decoder on bytes as they lie in memory: the instruction and the bytes after it. Total on any bytes. -/
def decodeBytes : List Byte → Except DecodeError (Instr × List Byte)
  | hi :: lo :: rest =>
    match decodeWord (wordOfBytes hi lo) with
    | .ok i => .ok (i, rest)
    | .error e => .error e
  | [_] => .error .truncated
  | [] => .error .truncated

/-! ### The encoder, from the same patterns -/

/-- A register index as its 4-bit field. -/
def regBits (r : Reg) : BitVec 4 := BitVec.ofFin r

/-- Form A: op, nnn. -/
def encA (op : BitVec 4) (nnn : BitVec 12) : Word := op ++ nnn

/-- Forms XK and X: op, x, nn. -/
def encXK (op : BitVec 4) (x : Reg) (nn : Byte) : Word := op ++ (regBits x ++ nn)

/-- Forms XY and XYN: op, x, y, n. -/
def encXYN (op : BitVec 4) (x y : Reg) (n : BitVec 4) : Word := op ++ (regBits x ++ (regBits y ++ n))

/-- The word of an instruction. -/
def encode : Instr → Word
  | .halt => 0x0000#16
  | .cls => 0x00E0#16
  | .ret => 0x00EE#16
  | .jp nnn => encA 0x1#4 nnn
  | .call nnn => encA 0x2#4 nnn
  | .seImm x nn => encXK 0x3#4 x nn
  | .sneImm x nn => encXK 0x4#4 x nn
  | .seReg x y => encXYN 0x5#4 x y 0x0#4
  | .ldImm x nn => encXK 0x6#4 x nn
  | .addImm x nn => encXK 0x7#4 x nn
  | .ldReg x y => encXYN 0x8#4 x y 0x0#4
  | .orReg x y => encXYN 0x8#4 x y 0x1#4
  | .andReg x y => encXYN 0x8#4 x y 0x2#4
  | .xorReg x y => encXYN 0x8#4 x y 0x3#4
  | .addReg x y => encXYN 0x8#4 x y 0x4#4
  | .sub x y => encXYN 0x8#4 x y 0x5#4
  | .shr x y => encXYN 0x8#4 x y 0x6#4
  | .subn x y => encXYN 0x8#4 x y 0x7#4
  | .shl x y => encXYN 0x8#4 x y 0xE#4
  | .sneReg x y => encXYN 0x9#4 x y 0x0#4
  | .ldI nnn => encA 0xA#4 nnn
  | .jpV0 nnn => encA 0xB#4 nnn
  | .rnd x nn => encXK 0xC#4 x nn
  | .drw x y n => encXYN 0xD#4 x y (BitVec.ofNat 4 n)
  | .skp x => encXK 0xE#4 x 0x9E#8
  | .sknp x => encXK 0xE#4 x 0xA1#8
  | .ldVxDt x => encXK 0xF#4 x 0x07#8
  | .ldVxK x => encXK 0xF#4 x 0x0A#8
  | .ldDtVx x => encXK 0xF#4 x 0x15#8
  | .ldStVx x => encXK 0xF#4 x 0x18#8
  | .addIVx x => encXK 0xF#4 x 0x1E#8
  | .ldFVx x => encXK 0xF#4 x 0x29#8
  | .ldBVx x => encXK 0xF#4 x 0x33#8
  | .ldMemVx x => encXK 0xF#4 x 0x55#8
  | .ldVxMem x => encXK 0xF#4 x 0x65#8

/-- The two bytes of an instruction as they lie in memory, high byte first (R91). -/
def encodeBytes (i : Instr) : List Byte := [(encode i).extractLsb' 8 8, (encode i).extractLsb' 0 8]

/-! ### The table of match and mask values (R125), beside the decoder as a second reading of the same rule -/

/-- One row of R125: `w` matches when `w AND mask = fixed`. -/
structure OpcodeRow where
  mnemonic : String
  fixed : Word
  mask : Word
  deriving DecidableEq, Repr

/-- The row of R125 an instruction belongs to. -/
def rowOf : Instr → OpcodeRow
  | .halt => ⟨"HALT", 0x0000#16, 0xFFFF#16⟩
  | .cls => ⟨"CLS", 0x00E0#16, 0xFFFF#16⟩
  | .ret => ⟨"RET", 0x00EE#16, 0xFFFF#16⟩
  | .jp _ => ⟨"JP", 0x1000#16, 0xF000#16⟩
  | .call _ => ⟨"CALL", 0x2000#16, 0xF000#16⟩
  | .seImm _ _ => ⟨"SE_IMM", 0x3000#16, 0xF000#16⟩
  | .sneImm _ _ => ⟨"SNE_IMM", 0x4000#16, 0xF000#16⟩
  | .seReg _ _ => ⟨"SE_REG", 0x5000#16, 0xF00F#16⟩
  | .ldImm _ _ => ⟨"LD_IMM", 0x6000#16, 0xF000#16⟩
  | .addImm _ _ => ⟨"ADD_IMM", 0x7000#16, 0xF000#16⟩
  | .ldReg _ _ => ⟨"LD_REG", 0x8000#16, 0xF00F#16⟩
  | .orReg _ _ => ⟨"OR", 0x8001#16, 0xF00F#16⟩
  | .andReg _ _ => ⟨"AND", 0x8002#16, 0xF00F#16⟩
  | .xorReg _ _ => ⟨"XOR", 0x8003#16, 0xF00F#16⟩
  | .addReg _ _ => ⟨"ADD_REG", 0x8004#16, 0xF00F#16⟩
  | .sub _ _ => ⟨"SUB", 0x8005#16, 0xF00F#16⟩
  | .shr _ _ => ⟨"SHR", 0x8006#16, 0xF00F#16⟩
  | .subn _ _ => ⟨"SUBN", 0x8007#16, 0xF00F#16⟩
  | .shl _ _ => ⟨"SHL", 0x800E#16, 0xF00F#16⟩
  | .sneReg _ _ => ⟨"SNE_REG", 0x9000#16, 0xF00F#16⟩
  | .ldI _ => ⟨"LD_I", 0xA000#16, 0xF000#16⟩
  | .jpV0 _ => ⟨"JP_V0", 0xB000#16, 0xF000#16⟩
  | .rnd _ _ => ⟨"RND", 0xC000#16, 0xF000#16⟩
  | .drw _ _ _ => ⟨"DRW", 0xD000#16, 0xF000#16⟩
  | .skp _ => ⟨"SKP", 0xE09E#16, 0xF0FF#16⟩
  | .sknp _ => ⟨"SKNP", 0xE0A1#16, 0xF0FF#16⟩
  | .ldVxDt _ => ⟨"LD_VX_DT", 0xF007#16, 0xF0FF#16⟩
  | .ldVxK _ => ⟨"LD_VX_K", 0xF00A#16, 0xF0FF#16⟩
  | .ldDtVx _ => ⟨"LD_DT_VX", 0xF015#16, 0xF0FF#16⟩
  | .ldStVx _ => ⟨"LD_ST_VX", 0xF018#16, 0xF0FF#16⟩
  | .addIVx _ => ⟨"ADD_I_VX", 0xF01E#16, 0xF0FF#16⟩
  | .ldFVx _ => ⟨"LD_F_VX", 0xF029#16, 0xF0FF#16⟩
  | .ldBVx _ => ⟨"LD_B_VX", 0xF033#16, 0xF0FF#16⟩
  | .ldMemVx _ => ⟨"LD_MEM_VX", 0xF055#16, 0xF0FF#16⟩
  | .ldVxMem _ => ⟨"LD_VX_MEM", 0xF065#16, 0xF0FF#16⟩

/-- The 35 rows of R125, in its order, each taken from an instruction of the row with its free fields 0. -/
def opcodeTable : List OpcodeRow :=
  [.halt, .cls, .ret, .jp 0, .call 0, .seImm 0 0, .sneImm 0 0, .seReg 0 0, .ldImm 0 0, .addImm 0 0, .ldReg 0 0,
    .orReg 0 0].map rowOf ++
  [.andReg 0 0, .xorReg 0 0, .addReg 0 0, .sub 0 0, .shr 0 0, .subn 0 0, .shl 0 0, .sneReg 0 0, .ldI 0, .jpV0 0,
    .rnd 0 0, .drw 0 0 0].map rowOf ++
  [.skp 0, .sknp 0, .ldVxDt 0, .ldVxK 0, .ldDtVx 0, .ldStVx 0, .addIVx 0, .ldFVx 0, .ldBVx 0, .ldMemVx 0,
    .ldVxMem 0].map rowOf

/-- `w AND mask = fixed`. -/
def OpcodeRow.matches (r : OpcodeRow) (w : Word) : Bool := w &&& r.mask == r.fixed

/-- R127's list of the illegal words, written as the rule writes it. -/
def illegalWord (w : Word) : Bool :=
  match fieldOp w with
  | 0x0#4 => (0x0001 ≤ w.toNat && w.toNat ≤ 0x00DF) || (0x00E1 ≤ w.toNat && w.toNat ≤ 0x00ED) ||
      (0x00EF ≤ w.toNat && w.toNat ≤ 0x0FFF)
  | 0x5#4 => fieldN w != 0x0#4
  | 0x8#4 => [0x8#4, 0x9#4, 0xA#4, 0xB#4, 0xC#4, 0xD#4, 0xF#4].contains (fieldN w)
  | 0x9#4 => fieldN w != 0x0#4
  | 0xE#4 => !([0x9E#8, 0xA1#8].contains (fieldNN w))
  | 0xF#4 => !([0x07#8, 0x0A#8, 0x15#8, 0x18#8, 0x1E#8, 0x29#8, 0x33#8, 0x55#8, 0x65#8].contains (fieldNN w))
  | _ => false

/-! ### The table's numbering of an instruction's bits -/

/-- The bytes, as the hardware stores them, of an instruction whose `nbits` bits are `w` (bit 0 the least significant bit
of the word) and whose bits above `nbits` are 0. -/
def tableWordBytes (nbits w : Nat) : List Byte :=
  let word := BitVec.ofNat 16 (w % 2 ^ nbits)
  [word.extractLsb' 8 8, word.extractLsb' 0 8]

/-- The instruction the decoder reads from such a word, or none where it refuses. -/
def decodeTableWord (nbits w : Nat) : Option Instr :=
  match decodeBytes (tableWordBytes nbits w) with
  | .ok (i, _) => some i
  | .error _ => none

end Sys2Proof
end

