-- ==== Sys2Proof/Config.lean ====
section
/-! DEFINITION. What is fixed for this hardware (spec/00_scope.md section 4) and its two OPEN parameters, which are
constants with no body: nothing can be proved about their values. -/

namespace Sys2Proof.Config

/-- R9: the number of bytes of memory. -/
@[simp] def memSize : Nat := 4096

/-- R10: where programs are loaded and where the PC starts. -/
@[simp] def loadOffset : Nat := 512

/-- R11: the longest program the loader accepts, `memSize - loadOffset`. -/
@[simp] def maxProgram : Nat := 3584

/-- R12: the font occupies bytes 0 to 79. -/
@[simp] def fontSize : Nat := 80

/-- R12: the number of bytes of one glyph. -/
@[simp] def glyphBytes : Nat := 5

/-- R17: the number of entries of the call stack. -/
@[simp] def stackDepth : Nat := 16

/-- R19: the number of pixel columns. -/
@[simp] def dispW : Nat := 64

/-- R19: the number of pixel rows. -/
@[simp] def dispH : Nat := 32

/-- R14: VF, the register that doubles as the flag register. -/
@[simp] def flagReg : Reg := 15

/-- R21: whether the timers tick on a step whose instruction set the PC itself; false for this hardware. -/
@[simp] def tickOnPcWrite : Bool := false

/-- R13 (OPEN): FONT_ROM, the font byte at addresses 0 to 79. The spec gives no values (log entry 3). -/
opaque fontRom : Nat → Byte

/-- R23, R235 (OPEN): the random-byte input. `randomByte n` is the byte the n-th execution of RND draws: a free value
(log entry 2). -/
opaque randomByte : Nat → Byte

end Sys2Proof.Config
end

