-- ==== Sys2Proof/Machine/State.lean ====
section
/-! DEFINITION. The machine's state, the faults it can raise, the refusals, and the state after reset
(spec/10_state.md R40-R59, spec/60_exceptions.md R321, spec/70_reset_and_hazards.md R350). -/

namespace Sys2Proof.Machine

/-- The fault kinds of R321 with the information each records. Every fault is fatal: the block stops, and what the other
state elements hold is unspecified (R320, R322), so stopping here is the spec's own behaviour (log entry 1). -/
inductive Fault where
  /-- Code 1, raised by DECODE of a word that matches no pattern; records the word and the PC (R127). Safe. -/
  | unrecognizedOpcode (w pc : Word)
  /-- Code 2, raised by CALL when 16 entries are in use; records the PC of the CALL (R202). Safe. -/
  | stackOverflow (pc : Word)
  /-- Code 3, raised by RET when the stack is empty; records the PC of the RET (R201). Safe. -/
  | stackUnderflow (pc : Word)
  /-- Code 4, raised by FETCH, DRW, LD_B_VX, LD_MEM_VX and LD_VX_MEM at an address of 4096 or more; records the address
  (R88, R89). Safe. -/
  | memoryOutOfRange (addr : Nat)
  /-- Code 5, raised by the host port populate_registers given more than 16 values; records 16, the first bad index
  (R60). Never raised by a step. Safe. -/
  | registerIndexOutOfRange (index : Nat)
  /-- Code 6, raised by DRW when a 1 bit lands at column 64 or beyond or row 32 or beyond; records the position (R274).
  Safe. -/
  | displayOutOfRange (col row : Nat)
  /-- Code 7, raised by ADD_I_VX when I + Vx exceeds 0xFFFF; records the sum (R251). Safe. -/
  | indexOverflow (sum : Nat)
  deriving DecidableEq, Repr

/-- Why a step can have no meaning. No arm of `exec` answers with it: every instruction of the table is modelled. -/
inductive Refusal where
  /-- An instruction that has no meaning yet, by its mnemonic; raised by no step of this model. Safe. -/
  | notModelled (mnemonic : String)
  deriving DecidableEq, Repr

/-- MEM (R54, R80) as the cells that differ from the reset contents, addresses strictly rising (`Memory.wf`). -/
abbrev Memory := List Host.Cell

/-- PIX (R55): `PIX[x][y]` is `pix[x][y]`, 64 columns of 32 pixels. -/
abbrev Display := Vector (Vector Bool 32) 64

/-- The architectural state, R40, and the model's own counter of drawn random bytes. -/
structure State where
  /-- V0 to VF (R42, R43). -/
  v : Vector Byte 16
  /-- The index register I (R46). -/
  i : Word
  /-- The program counter (R47). -/
  pc : Word
  /-- STACK[0..15] (R50). -/
  stack : Vector Word 16
  /-- SP, the number of stack entries in use, 0 to 16 (R50). -/
  sp : Fin 17
  /-- The delay timer DT (R52). -/
  dt : Byte
  /-- The sound timer ST (R53). -/
  st : Byte
  /-- MEM (R54). -/
  mem : Memory
  /-- PIX (R55). -/
  pix : Display
  /-- KEY, the pending key (R56). -/
  key : Option Key
  /-- FAULT, the sticky fault status (R57). -/
  fault : Option Fault
  /-- The model's own field: how many random bytes have been drawn, which selects the next one from the free input
  `Config.randomByte` (R23, R235; log entry 2). -/
  draws : Nat
  deriving DecidableEq, Repr

/-- The state after `new()` (R59, R350). -/
def State.reset : State where
  v := Vector.replicate 16 0
  i := 0
  pc := 0x200
  stack := Vector.replicate 16 0
  sp := 0
  dt := 0
  st := 0
  mem := []
  pix := Vector.replicate 64 (Vector.replicate 32 false)
  key := none
  fault := none
  draws := 0

end Sys2Proof.Machine
end

