-- ==== Sys2Proof/Machine/Ops.lean ====
section
/-! DEFINITION. The named operations on the state: memory, registers, stack, timers, display, keypad, random input,
fetching, raising a fault and retiring (spec/10_state.md, 20_memory.md, 30_encoding.md, 43_display.md, 44_keypad.md,
60_exceptions.md). -/

namespace Sys2Proof.Machine

/-- What one step answers. -/
abbrev Answer := Host.Outcome State Fault Refusal

/-! ### Raising a fault (R320, R322)

There is no trap entry and no return (R326, R327): a fault stops the block. The step's answer is the fault itself, which
is all R322 lets one know of the state after it. The FAULT element and the unspecified rest are put together by
`State.faulted` where the host goes on using its ports. -/

/-- `raise Fault(kind, info)`: the step ends at once with that fault; nothing of the instruction retires (R320). -/
def raiseFault (f : Fault) : Answer := .fault f

/-- The answer of an instruction whose effects may fault: the fault, or the state they lead to. -/
def answerOf : Except Fault State → Answer
  | .ok s => .next s
  | .error f => raiseFault f

/-- R321's codes. -/
def Fault.code : Fault → Nat
  | .unrecognizedOpcode _ _ => 1
  | .stackOverflow _ => 2
  | .stackUnderflow _ => 3
  | .memoryOutOfRange _ => 4
  | .registerIndexOutOfRange _ => 5
  | .displayOutOfRange _ _ => 6
  | .indexOverflow _ => 7

/-! ### Memory as data -/

/-- What an address no cell lists reads as: the reset contents, FONT_ROM at 0 to 79 and 0 elsewhere (R85). -/
def memDefault (a : Nat) : Byte := if a < Config.fontSize then Config.fontRom a else 0

/-- The byte at an address. -/
def Memory.read : Memory → Nat → Byte
  | [], a => memDefault a
  | (b, w) :: m, a => if a = b then w else Memory.read m a

/-- A cell in front of a memory, left out where it says what an unlisted address says anyway. -/
def Memory.cons (a : Nat) (v : Byte) (m : Memory) : Memory :=
  if v = memDefault a then m else (a, v) :: m

/-- Storing a byte, keeping the canonical form. -/
def Memory.write : Memory → Nat → Byte → Memory
  | [], a, v => Memory.cons a v []
  | (b, w) :: m, a, v =>
    if a < b then Memory.cons a v ((b, w) :: m)
    else if a = b then Memory.cons a v m
    else (b, w) :: Memory.write m a v

/-- The canonical form from address `lo` on: addresses strictly rising and below 4096, no cell equal to its default. -/
def Memory.wfFrom : Nat → Memory → Bool
  | _, [] => true
  | lo, (a, v) :: m => decide (lo ≤ a) && decide (a < Config.memSize) && decide (v ≠ memDefault a) && Memory.wfFrom (a + 1) m

/-- The canonical form of a memory. -/
def Memory.wf (m : Memory) : Bool := Memory.wfFrom 0 m

/-- The canonical memory with the bytes `m` has below 4096, whatever list of cells `m` is: the first cell of an address
counts, as for `Memory.read`. A canonical memory is its own. -/
def Memory.canonical : Memory → Memory
  | [] => []
  | (a, v) :: m => if a < Config.memSize then Memory.write (Memory.canonical m) a v else Memory.canonical m

/-- The state a fault leaves: FAULT holds the fault, every other element is whatever `u` holds (R322). Nothing is
assumed of `u`: it is the unspecified state, a free argument (log entry 1). Its memory is 4096 bytes of any values (R54),
held in the canonical form, so that the ports used after a fault write and read it as R96 and R98 say. -/
def State.faulted (f : Fault) (u : State) : State := { u with mem := Memory.canonical u.mem, fault := some f }

/-- Bytes put at `a, a+1, …` by the host's loader (R96); a byte at 4096 or beyond has no place and is dropped. -/
def placeBytes (m : Memory) : Nat → List Byte → Memory
  | _, [] => m
  | a, b :: bs => placeBytes (if a < Config.memSize then Memory.write m a b else m) (a + 1) bs

/-! ### Reading and writing one element -/

/-- `V[r]` (R26, R42). -/
def State.getV (s : State) (r : Reg) : Byte := s.v[r.val]

/-- `V[r] <- b`. -/
def State.setV (s : State) (r : Reg) (b : Byte) : State := { s with v := s.v.set r.val b }

/-- `VF <- b` (R43). -/
def State.setVF (s : State) (b : Byte) : State := s.setV Config.flagReg b

/-- `V[k] <- bs[0], V[k+1] <- bs[1], …` in ascending order; there are no registers beyond index 15. -/
def State.setVs (s : State) : Nat → List Byte → State
  | _, [] => s
  | k, b :: bs => if h : k < 16 then (s.setV ⟨k, h⟩ b).setVs (k + 1) bs else s

/-- `I <- w` (R46). -/
def State.setI (s : State) (w : Word) : State := { s with i := w }

/-- `PC <- w` (R47). -/
def State.setPc (s : State) (w : Word) : State := { s with pc := w }

/-- `DT <- b` (R52). -/
def State.setDt (s : State) (b : Byte) : State := { s with dt := b }

/-- `ST <- b` (R53). -/
def State.setSt (s : State) (b : Byte) : State := { s with st := b }

/-- `KEY <- k` (R56). -/
def State.setKey (s : State) (k : Option Key) : State := { s with key := k }

/-- The display replaced. -/
def State.setPix (s : State) (p : Display) : State := { s with pix := p }

/-- MEM replaced. -/
def State.setMem (s : State) (m : Memory) : State := { s with mem := m }

/-- STACK and SP replaced. -/
def State.setStack (s : State) (stack : Vector Word 16) (sp : Fin 17) : State := { s with stack := stack, sp := sp }

/-- The count of drawn random bytes replaced. -/
def State.setDraws (s : State) (n : Nat) : State := { s with draws := n }

/-! ### The memory interface (R88, R89) -/

/-- `MemRead(addr, 1)` (R88). -/
def memRead (s : State) (a : Nat) : Except Fault Byte :=
  if a < Config.memSize then .ok (Memory.read s.mem a) else .error (.memoryOutOfRange a)

/-- `MemWrite(addr, 1, v)` (R89). -/
def memWrite (s : State) (a : Nat) (v : Byte) : Except Fault State :=
  if a < Config.memSize then .ok (s.setMem (Memory.write s.mem a v)) else .error (.memoryOutOfRange a)

/-- Byte reads at `a, a+1, …`, `k` of them in ascending order; the first failing address is reported (R95). -/
def readBytes (s : State) : Nat → Nat → Except Fault (List Byte)
  | _, 0 => .ok []
  | a, k + 1 =>
    match memRead s a with
    | .error f => .error f
    | .ok b =>
      match readBytes s (a + 1) k with
      | .error f => .error f
      | .ok bs => .ok (b :: bs)

/-- Byte writes at `a, a+1, …` in ascending order; the first failing address is reported (R95). -/
def writeBytes (s : State) : Nat → List Byte → Except Fault State
  | _, [] => .ok s
  | a, b :: bs =>
    match memWrite s a b with
    | .error f => .error f
    | .ok t => writeBytes t (a + 1) bs

/-! ### The call stack (R50) -/

/-- Push: StackOverflow with 16 entries in use, else `STACK[SP] <- w; SP <- SP + 1`. The fault records the PC (R321). -/
def pushStack (s : State) (w : Word) : Except Fault State :=
  if h : s.sp.val < Config.stackDepth then
    .ok (s.setStack (s.stack.set s.sp.val w h) ⟨s.sp.val + 1, Nat.succ_lt_succ h⟩)
  else .error (.stackOverflow s.pc)

/-- Pop: StackUnderflow with none in use, else `SP <- SP - 1` and the value is `STACK[SP]`; the entry stays (R50). -/
def popStack (s : State) : Except Fault (Word × State) :=
  if h : s.sp.val = 0 then .error (.stackUnderflow s.pc)
  else
    .ok (s.stack[s.sp.val - 1]'(by have := s.sp.isLt; omega),
      s.setStack s.stack ⟨s.sp.val - 1, by have := s.sp.isLt; omega⟩)

/-! ### Timers and RETIRE (R145, R147, R148) -/

/-- A timer counts down by 1 while above 0 and stops at 0 (R313). -/
def countDown (b : Byte) : Byte := if 0 < b.toNat then b - 1 else b

/-- `TickTimers()` (R147). -/
def tickTimers (s : State) : State := (s.setDt (countDown s.dt)).setSt (countDown s.st)

/-- RETIRE of a class A instruction: `PC <- PC + 2`, then the timers tick (R145, R147). The 16-bit sum wraps only from a PC
no step executes at (R49; log entry 5). -/
def retire (s : State) : State := tickTimers (s.setPc (s.pc + 2))

/-- RETIRE of a class P instruction, which set the PC itself: the timers tick only if `tickOnPcWrite` (R147). -/
def retireJump (s : State) : State := if Config.tickOnPcWrite then tickTimers s else s

/-- A taken skip adds 2 to the PC in EXECUTE (R209). -/
def skipIf (c : Bool) (s : State) : State := if c then s.setPc (s.pc + 2) else s

/-- The classes of R148. -/
inductive RetireClass where
  /-- A: advances the PC and ticks. -/
  | advance
  /-- P: sets the PC itself. -/
  | setsPc
  /-- H: halts, no state change. -/
  | halts
  /-- W: class A when a key was pending, else waits with no state change. -/
  | waits
  deriving DecidableEq, Repr

/-- Which class an instruction is of (R148). -/
def retireClass : Instr → RetireClass
  | .ret | .jp _ | .call _ | .jpV0 _ => .setsPc
  | .halt => .halts
  | .ldVxK _ => .waits
  | .cls | .seImm _ _ | .sneImm _ _ | .seReg _ _ | .ldImm _ _ | .addImm _ _ | .ldReg _ _ | .orReg _ _ | .andReg _ _
  | .xorReg _ _ | .addReg _ _ | .sub _ _ | .shr _ _ | .subn _ _ | .shl _ _ | .sneReg _ _ | .ldI _ | .rnd _ _
  | .drw _ _ _ | .skp _ | .sknp _ | .ldVxDt _ | .ldDtVx _ | .ldStVx _ | .addIVx _ | .ldFVx _ | .ldBVx _ | .ldMemVx _
  | .ldVxMem _ => .advance

/-! ### FETCH (R90, R142) -/

/-- The word at the PC, high byte first; either read may fault. -/
def fetch (s : State) : Except Fault Word :=
  match memRead s s.pc.toNat with
  | .error f => .error f
  | .ok hi =>
    match memRead s (s.pc.toNat + 1) with
    | .error f => .error f
    | .ok lo => .ok (wordOfBytes hi lo)

/-! ### The display (R270-R277) -/

/-- `ClearDisplay()` (R271). -/
def clearedDisplay : Display := Vector.replicate 64 (Vector.replicate 32 false)

/-- `PIX[x][y]`; false outside the grid, where there is no pixel. -/
def Display.pixel (p : Display) (x y : Nat) : Bool :=
  if h : x < 64 ∧ y < 32 then (p[x]'h.1)[y]'h.2 else false

/-- `draw_pixel(x, y)`: toggles one pixel; a position outside the grid faults (R272, R274). -/
def Display.toggle (p : Display) (x y : Nat) : Except Fault Display :=
  if h : x < 64 ∧ y < 32 then .ok (p.set x ((p[x]'h.1).set y (!((p[x]'h.1)[y]'h.2)) h.2) h.1)
  else .error (.displayOutOfRange x y)

/-- `byte[7 - b]`: bit index `b` of a sprite row, 0 the most significant (R273). -/
def spriteBit (byte : Byte) (b : Nat) : Bool := byte.getLsbD (7 - b)

/-- The bits `bs` of a sprite row at column `x`, row `y`, in their order: 0 bits touch nothing, a 1 bit toggles its pixel
and records a collision if that pixel was 1 (R273). The flag carries the collisions so far. -/
def drawBits (byte : Byte) (x y : Nat) : List Nat → Display × Bool → Except Fault (Display × Bool)
  | [], pc => .ok pc
  | b :: bs, (p, coll) =>
    if spriteBit byte b then
      match Display.toggle p (x + b) y with
      | .error f => .error f
      | .ok p' => drawBits byte x y bs (p', coll || Display.pixel p (x + b) y)
    else drawBits byte x y bs (p, coll)

/-- `Draw(byte, X, Y)`: the 8 bits, most significant first (R273), the flag ORed onto the collisions so far (R281). -/
def drawRow (byte : Byte) (x y : Nat) (pc : Display × Bool) : Except Fault (Display × Bool) :=
  drawBits byte x y [0, 1, 2, 3, 4, 5, 6, 7] pc

/-- DRW's loop (R281): `k` rows from address `a` at column `x`, row `y` and down; each row's byte is read before its
pixels are drawn (R325). -/
def drawRows (s : State) (x : Nat) : Nat → Nat → Nat → Display × Bool → Except Fault (Display × Bool)
  | _, _, 0, pc => .ok pc
  | a, y, k + 1, pc =>
    match memRead s a with
    | .error f => .error f
    | .ok byte =>
      match drawRow byte x y pc with
      | .error f => .error f
      | .ok pc' => drawRows s x (a + 1) (y + 1) k pc'

/-- `count_set_pixels()` (R277). -/
def Display.countSet (p : Display) : Nat := (p.toList.map fun col => col.toList.count true).sum

/-! ### The keypad (R290-R293) -/

/-- `Take()`: the pending key, cleared (R291). -/
def takeKey (s : State) : Option Key × State := (s.key, s.setKey none)

/-- `WasPressed(k)`: whether the pending key equals `k`, which may be any number (R292). -/
def wasPressed (s : State) (k : Nat) : Bool := s.key.map Fin.val == some k

/-- `AnyPressed()` (R293). -/
def anyPressed (s : State) : Bool := s.key.isSome

/-! ### The random input (R235) -/

/-- `DrawRandomByte()`: the next byte of the free input, and the state with that input advanced (log entry 2). -/
def drawRandomByte (s : State) : Byte × State := (Config.randomByte s.draws, s.setDraws (s.draws + 1))

end Sys2Proof.Machine
end

