-- ==== Sys2Proof/Machine/Operands.lean ====
section
/-! DEFINITION. The operand forms (spec/30_encoding.md R122, spec/42_index_memory.md R256): immediates and addresses are
zero-extended, and the one data addressing mode is I plus a small offset. -/

namespace Sys2Proof.Machine

/-- `nnn` as a 16-bit address, zero-extended (R122). -/
def addrOperand (nnn : BitVec 12) : Word := nnn.setWidth 16

/-- A register's byte as a 16-bit value, zero-extended (R25). -/
def wideReg (s : State) (r : Reg) : Word := (s.getV r).setWidth 16

/-- The effective address I + k, an unbounded number (R81, R256). -/
def indexAddr (s : State) (k : Nat) : Nat := s.i.toNat + k

/-- The values of V0 to Vx, in that order: what Fx55 stores (R254). -/
def regsUpTo (s : State) (x : Reg) : List Byte := s.v.toList.take (x.val + 1)

/-- The three decimal digits of a byte, the hundreds first (R253). -/
def decimalDigits (b : Byte) : List Byte :=
  [BitVec.ofNat 8 (b.toNat / 100), BitVec.ofNat 8 (b.toNat / 10 % 10), BitVec.ofNat 8 (b.toNat % 10)]

/-- The nnn + V0 target, not reduced (R208). -/
def indexedTarget (s : State) (nnn : BitVec 12) : Word := addrOperand nnn + wideReg s 0

end Sys2Proof.Machine
end

