-- ==== Sys2Proof/Machine/Flags.lean ====
section
/-! DEFINITION. What is written to VF, and the results that go with it (spec/10_state.md R43, spec/41_alu.md R226-R233,
spec/42_index_memory.md R251, spec/43_display.md R281). -/

namespace Sys2Proof.Machine

/-- A flag as the byte written to VF. -/
def flagByte (c : Bool) : Byte := if c then 1 else 0

/-- R226: 1 if the sum exceeds 255. -/
def carryFlag (vx vy : Byte) : Byte := flagByte (decide (255 < vx.toNat + vy.toNat))

/-- R227: 0 if Vy > Vx, else 1. -/
def subFlag (vx vy : Byte) : Byte := flagByte (decide (vy.toNat ≤ vx.toNat))

/-- R229: 0 if Vx > Vy, else 1. -/
def subnFlag (vx vy : Byte) : Byte := flagByte (decide (vx.toNat ≤ vy.toNat))

/-- The source's `abs(Vy - Vx + 1) mod 256`, in integers (R227, R229, R232). -/
def borrowResult (vx vy : Byte) : Byte := BitVec.ofNat 8 (((vy.toNat : Int) - (vx.toNat : Int) + 1).natAbs % 256)

/-- R227: the result of SUB. -/
def subResult (vx vy : Byte) : Byte := if vx.toNat < vy.toNat then borrowResult vx vy else vx - vy

/-- R229: the result of SUBN. -/
def subnResult (vx vy : Byte) : Byte :=
  if vy.toNat < vx.toNat then borrowResult vx vy
  else BitVec.ofNat 8 (((vy.toNat : Int) - (vx.toNat : Int)).natAbs % 256)

/-- R228: bit 0 before the shift. -/
def lowBitFlag (vx : Byte) : Byte := vx &&& 1

/-- R230: bit 7 before the shift. -/
def highBitFlag (vx : Byte) : Byte := vx >>> 7

/-- R251: 1 if the new I is above 0xFFF. -/
def indexFlag (sum : Nat) : Byte := flagByte (decide (0xFFF < sum))

/-- R281: 1 if any 1 bit of the sprite landed on a pixel that was 1. -/
def collisionFlag (coll : Bool) : Byte := flagByte coll

end Sys2Proof.Machine
end

