-- ==== Sys2Proof/Machine/Alu.lean ====
section
/-! DEFINITION. Register loads, arithmetic, logic, shifts and random (spec/41_alu.md R220-R235). Operands are read from
the state at the start of the step; the writes stand in the order of the rule, so that the later one wins (R27, R233). -/

namespace Sys2Proof.Machine

/-- LD_IMM (R220). -/
def execLdImm (x : Reg) (nn : Byte) (s : State) : Answer := .next (retire (s.setV x nn))

/-- ADD_IMM (R221): modulo 256, VF unaffected. -/
def execAddImm (x : Reg) (nn : Byte) (s : State) : Answer := .next (retire (s.setV x (s.getV x + nn)))

/-- LD_REG (R222). -/
def execLdReg (x y : Reg) (s : State) : Answer := .next (retire (s.setV x (s.getV y)))

/-- OR (R223). -/
def execOrReg (x y : Reg) (s : State) : Answer := .next (retire (s.setV x (s.getV x ||| s.getV y)))

/-- AND (R224). -/
def execAndReg (x y : Reg) (s : State) : Answer := .next (retire (s.setV x (s.getV x &&& s.getV y)))

/-- XOR (R225). -/
def execXorReg (x y : Reg) (s : State) : Answer := .next (retire (s.setV x (s.getV x ^^^ s.getV y)))

/-- ADD_REG (R226): the sum modulo 256, then the carry. -/
def execAddReg (x y : Reg) (s : State) : Answer :=
  .next (retire ((s.setV x (s.getV x + s.getV y)).setVF (carryFlag (s.getV x) (s.getV y))))

/-- SUB (R227). -/
def execSub (x y : Reg) (s : State) : Answer :=
  .next (retire ((s.setV x (subResult (s.getV x) (s.getV y))).setVF (subFlag (s.getV x) (s.getV y))))

/-- SHR (R228): the flag first, then the result; y is not read. -/
def execShr (x _y : Reg) (s : State) : Answer :=
  .next (retire ((s.setVF (lowBitFlag (s.getV x))).setV x (s.getV x >>> 1)))

/-- SUBN (R229). -/
def execSubn (x y : Reg) (s : State) : Answer :=
  .next (retire ((s.setV x (subnResult (s.getV x) (s.getV y))).setVF (subnFlag (s.getV x) (s.getV y))))

/-- SHL (R230): the flag first, then the result; y is not read. -/
def execShl (x _y : Reg) (s : State) : Answer :=
  .next (retire ((s.setVF (highBitFlag (s.getV x))).setV x (s.getV x <<< 1)))

/-- RND with the byte it draws given (R231): the byte masked with nn. -/
def execRndWith (r : Byte) (x : Reg) (nn : Byte) (s : State) : Answer := .next (retire (s.setV x (r &&& nn)))

/-- RND (R231): exactly one byte is drawn from the free input (R235, log entry 2). -/
def execRnd (x : Reg) (nn : Byte) (s : State) : Answer :=
  execRndWith (drawRandomByte s).1 x nn (drawRandomByte s).2

end Sys2Proof.Machine
end

