-- ==== Sys2Proof/Machine/Control.lean ====
section
/-! DEFINITION. Control transfer, skips and halt (spec/40_control.md R200-R210). -/

namespace Sys2Proof.Machine

/-- HALT (R200): nothing changes, the PC included. The outcome Halted is read off by `stepOutcome` (log entry 4). -/
def execHalt (s : State) : Answer := .next s

/-- RET (R201): StackUnderflow if the stack is empty, else the popped address into the PC, with no advance. -/
def execRet (s : State) : Answer := answerOf ((popStack s).map fun r => retireJump (r.2.setPc r.1))

/-- JP (R203). -/
def execJp (nnn : BitVec 12) (s : State) : Answer := .next (retireJump (s.setPc (addrOperand nnn)))

/-- CALL (R202): StackOverflow with 16 entries in use, else push PC + 2 and jump. -/
def execCall (nnn : BitVec 12) (s : State) : Answer :=
  answerOf ((pushStack s (s.pc + 2)).map fun t => retireJump (t.setPc (addrOperand nnn)))

/-- SE_IMM (R204). -/
def execSeImm (x : Reg) (nn : Byte) (s : State) : Answer := .next (retire (skipIf (s.getV x == nn) s))

/-- SNE_IMM (R205). -/
def execSneImm (x : Reg) (nn : Byte) (s : State) : Answer := .next (retire (skipIf (s.getV x != nn) s))

/-- SE_REG (R206). -/
def execSeReg (x y : Reg) (s : State) : Answer := .next (retire (skipIf (s.getV x == s.getV y) s))

/-- SNE_REG (R207). -/
def execSneReg (x y : Reg) (s : State) : Answer := .next (retire (skipIf (s.getV x != s.getV y) s))

/-- JP_V0 (R208): the sum is not reduced to 12 bits. -/
def execJpV0 (nnn : BitVec 12) (s : State) : Answer := .next (retireJump (s.setPc (indexedTarget s nnn)))

end Sys2Proof.Machine
end

