-- ==== Sys2Proof/Machine/IndexMemory.lean ====
section
/-! DEFINITION. The index register and memory transfers (spec/42_index_memory.md R250-R256). -/

namespace Sys2Proof.Machine

/-- LD_I (R250). -/
def execLdI (nnn : BitVec 12) (s : State) : Answer := .next (retire (s.setI (addrOperand nnn)))

/-- ADD_I_VX (R251): IndexOverflow above 0xFFFF; else the flag, then the sum. -/
def execAddIVx (x : Reg) (s : State) : Answer :=
  let sum := s.i.toNat + (s.getV x).toNat
  if 0xFFFF < sum then raiseFault (.indexOverflow sum)
  else .next (retire ((s.setVF (indexFlag sum)).setI (s.i + wideReg s x)))

/-- LD_F_VX (R252): Vx times 5, Vx not masked. -/
def execLdFVx (x : Reg) (s : State) : Answer :=
  .next (retire (s.setI (wideReg s x * BitVec.ofNat 16 Config.glyphBytes)))

/-- LD_B_VX (R253): the decimal digits of Vx at I, I + 1 and I + 2. -/
def execLdBVx (x : Reg) (s : State) : Answer :=
  answerOf ((writeBytes s (indexAddr s 0) (decimalDigits (s.getV x))).map retire)

/-- LD_MEM_VX (R254): V0 to Vx at I and up, I unchanged. -/
def execLdMemVx (x : Reg) (s : State) : Answer :=
  answerOf ((writeBytes s (indexAddr s 0) (regsUpTo s x)).map retire)

/-- LD_VX_MEM (R255): V0 to Vx from I and up, I unchanged. -/
def execLdVxMem (x : Reg) (s : State) : Answer :=
  answerOf ((readBytes s (indexAddr s 0) (x.val + 1)).map fun bs => retire (s.setVs 0 bs))

end Sys2Proof.Machine
end

