-- ==== Sys2Proof/Machine/Keypad.lean ====
section
/-! DEFINITION. The key instructions (spec/44_keypad.md R295-R297). -/

namespace Sys2Proof.Machine

/-- SKP (R295): the pending key is taken whether or not it matches. -/
def execSkp (x : Reg) (s : State) : Answer :=
  .next (retire (skipIf ((takeKey s).1.map Fin.val == some (s.getV x).toNat) (takeKey s).2))

/-- SKNP (R296): the key is kept. -/
def execSknp (x : Reg) (s : State) : Answer := .next (retire (skipIf (!wasPressed s (s.getV x).toNat) s))

/-- LD_VX_K (R297): takes the pending key into Vx; with none pending the step waits, with nothing changed
(log entry 4). -/
def execLdVxK (x : Reg) (s : State) : Answer :=
  match (takeKey s).1 with
  | some k => .next (retire ((takeKey s).2.setV x (BitVec.ofNat 8 k.val)))
  | none => .next s

end Sys2Proof.Machine
end

