-- ==== Sys2Proof/Machine/Screen.lean ====
section
/-! DEFINITION. The two display instructions (spec/43_display.md R280, R281); the display's own operations are in
Machine/Ops.lean. -/

namespace Sys2Proof.Machine

/-- CLS (R280). -/
def execCls (s : State) : Answer := .next (retire (s.setPix clearedDisplay))

/-- DRW (R281): n sprite rows from I at column Vx, row Vy and down; VF is the collision flag, written last. -/
def execDrw (x y : Reg) (n : Nat) (s : State) : Answer :=
  answerOf ((drawRows s (s.getV x).toNat (indexAddr s 0) (s.getV y).toNat n (s.pix, false)).map
    fun r => retire ((s.setPix r.1).setVF (collisionFlag r.2)))

end Sys2Proof.Machine
end

