-- ==== Sys2Proof/Machine/Timers.lean ====
section
/-! DEFINITION. The timer instructions (spec/45_timers.md R310-R313); RETIRE's tick follows each of them. -/

namespace Sys2Proof.Machine

/-- LD_VX_DT (R310): DT before this step's decrement. -/
def execLdVxDt (x : Reg) (s : State) : Answer := .next (retire (s.setV x s.dt))

/-- LD_DT_VX (R311). -/
def execLdDtVx (x : Reg) (s : State) : Answer := .next (retire (s.setDt (s.getV x)))

/-- LD_ST_VX (R312). -/
def execLdStVx (x : Reg) (s : State) : Answer := .next (retire (s.setSt (s.getV x)))

end Sys2Proof.Machine
end

