-- ==== Sys2Proof/Machine/Step.lean ====
section
/-! DEFINITION. One step: FETCH, DECODE, EXECUTE and RETIRE (spec/30_encoding.md R140-R147), and the placing of one
instruction where the next step fetches. -/

namespace Sys2Proof.Machine

/-- `step()` (R140): with FAULT set it answers that fault again (R141); else fetch (R142), decode (R143), execute and
retire (R144, R145, R147). -/
def step (s : State) : Host.Outcome State Fault Refusal :=
  match s.fault with
  | some f => raiseFault f
  | none =>
    match fetch s with
    | .error f => raiseFault f
    | .ok w =>
      match decodeWord w with
      | .error _ => raiseFault (.unrecognizedOpcode w s.pc)
      | .ok i => exec i s

/-- `s` with the instruction whose table bits are `w` stored at the PC, where the next step fetches (log entry 8). Only
memory changes. -/
def State.withFetchWord (s : State) (nbits w : Nat) : State :=
  s.setMem (placeBytes s.mem s.pc.toNat (tableWordBytes nbits w))

end Sys2Proof.Machine
end

