-- ==== Sys2Proof/Machine/Ports.lean ====
section
/-! DEFINITION. The host's side of the block: the outcome of a step and the host ports (spec/10_state.md R60-R63,
spec/20_memory.md R96, R97, spec/30_encoding.md R146, R150-R152, spec/43_display.md R276-R278, spec/44_keypad.md
R290-R294, spec/60_exceptions.md R320-R324, spec/70_reset_and_hazards.md R350). Ports act between steps (R63), so `step`
knows nothing of them; here each is a function on the state. Where a fault leaves the state unspecified (R322), the new
state is a free argument `u`, of which nothing is assumed (log entry 1). -/

namespace Sys2Proof.Machine

/-- What a step reports (R146). -/
inductive StepOutcome where
  | continued
  | halted
  | waiting
  | fault (f : Fault)
  deriving DecidableEq, Repr

/-- The outcome of an instruction that raises no fault, by its class (R146, R148). -/
def classOutcome (s : State) : RetireClass → StepOutcome
  | .advance => .continued
  | .setsPc => .continued
  | .halts => .halted
  | .waits => if anyPressed s then .continued else .waiting

/-- The outcome of the step taken from `s` (R146): a fault where `step` answers one, else by the class of the instruction
the step ran. -/
def stepOutcome (s : State) : StepOutcome :=
  match step s with
  | .fault f => .fault f
  | .refused _ => .continued
  | .next _ =>
    match fetch s with
    | .error f => .fault f
    | .ok w =>
      match decodeWord w with
      | .error _ => .continued
      | .ok i => classOutcome s (retireClass i)

/-- The state after the host's `step()` (R141, R150, R320): the next state; after a first fault the faulted state over
`u`; with FAULT already set nothing changes. -/
def stepPort (u s : State) : State :=
  match step s with
  | .next t => t
  | .fault f => if s.fault.isSome then s else State.faulted f u
  | .refused _ => s

/-- `run()` (R151): steps until the outcome is Halted or Fault; `none` where that has not come after `fuel` steps
(log entry 9). -/
def runPort (u : State) : Nat → State → Option (StepOutcome × State)
  | 0, _ => none
  | fuel + 1, s =>
    match stepOutcome s with
    | .halted => some (.halted, stepPort u s)
    | .fault f => some (.fault f, stepPort u s)
    | .continued => runPort u fuel (stepPort u s)
    | .waiting => runPort u fuel (stepPort u s)

/-- `load_program(bytes)` (R96, R97): the flag says whether it was accepted; ProgramTooLarge changes nothing. -/
def loadProgram (bytes : List Byte) (s : State) : Bool × State :=
  if bytes.length + Config.loadOffset ≤ Config.memSize then
    (true, s.setMem (placeBytes s.mem Config.loadOffset bytes))
  else (false, s)

/-- The state after a port raised a fault: the FAULT already recorded stays (R57), else this one is recorded; the rest is
`u`'s (R322; log entries 1 and 7). -/
def portFaulted (f : Fault) (u s : State) : State := State.faulted (s.fault.getD f) u

/-- `populate_registers(values)` (R60). -/
def populateRegisters (u : State) (values : List Byte) (s : State) : Option Fault × State :=
  if values.length ≤ 16 then (none, s.setVs 0 values)
  else (some (.registerIndexOutOfRange 16), portFaulted (.registerIndexOutOfRange 16) u s)

/-- `register_value(index)` (R61). -/
def registerValue (index : Nat) (s : State) : Option Byte :=
  if h : index < 16 then some (s.getV ⟨index, h⟩) else none

/-- `press(k)` (R290, R294): the flag says whether it was accepted; a code of 16 or more is refused. -/
def pressKey (k : Nat) (s : State) : Bool × State :=
  if h : k < 16 then (true, s.setKey (some ⟨k, h⟩)) else (false, s)

/-- The host operations other than `run` (R63). Reads outside the range a port is defined for cannot be written
(log entry 10). -/
inductive PortOp where
  | newMachine
  | step
  | loadProgram (bytes : List Byte)
  | populateRegisters (values : List Byte)
  | registerValue (index : Nat)
  | press (k : Nat)
  | take
  | wasPressed (k : Nat)
  | anyPressed
  | clear
  | countSetPixels
  | pixel (x : Fin 64) (y : Fin 32)
  | readMem (a : Fin 4096)
  | readPc
  | readSp
  | readI
  | readDt
  | readSt
  | readFault
  deriving DecidableEq, Repr

/-- What a host operation returns. -/
inductive PortResult where
  | done
  | outcome (o : StepOutcome)
  /-- ProgramTooLarge, the one recoverable error (R323). -/
  | programTooLarge
  /-- `press` of a code outside 0 to 15 (R294). -/
  | pressRefused
  | fault (f : Fault)
  | byte (b : Option Byte)
  | key (k : Option Key)
  | flag (b : Bool)
  | number (n : Nat)
  | faultStatus (f : Option Fault)
  deriving DecidableEq, Repr

/-- One host operation (R63): its result and the state after it. `u` is the unspecified state of R322. -/
def hostPort (u : State) (op : PortOp) (s : State) : PortResult × State :=
  match op with
  | .newMachine => (.done, State.reset)
  | .step => (.outcome (stepOutcome s), stepPort u s)
  | .loadProgram bytes => (if (loadProgram bytes s).1 then .done else .programTooLarge, (loadProgram bytes s).2)
  | .populateRegisters values =>
    ((populateRegisters u values s).1.elim .done .fault, (populateRegisters u values s).2)
  | .registerValue index => (.byte (registerValue index s), s)
  | .press k => (if (pressKey k s).1 then .done else .pressRefused, (pressKey k s).2)
  | .take => (.key (takeKey s).1, (takeKey s).2)
  | .wasPressed k => (.flag (wasPressed s k), s)
  | .anyPressed => (.flag (anyPressed s), s)
  | .clear => (.done, s.setPix clearedDisplay)
  | .countSetPixels => (.number s.pix.countSet, s)
  | .pixel x y => (.flag (s.pix.pixel x.val y.val), s)
  | .readMem a => (.byte (some (Memory.read s.mem a.val)), s)
  | .readPc => (.number s.pc.toNat, s)
  | .readSp => (.number s.sp.val, s)
  | .readI => (.number s.i.toNat, s)
  | .readDt => (.number s.dt.toNat, s)
  | .readSt => (.number s.st.toNat, s)
  | .readFault => (.faultStatus s.fault, s)

end Sys2Proof.Machine
end

