-- ==== Sys2Proof/Safety.lean ====
section
/-! DEFINITION. The invariant of a machine that has not faulted, and the words the statements use for what an instruction
leaves unchanged. -/

namespace Sys2Proof.Machine

/-- R49: "every value it can take is at most 0x10FE". -/
def State.pcBounded (s : State) : Prop := s.pc.toNat ≤ 0x10FE

/-- R49: a pushed return address is at most 4096; asked of the entries in use (R50). -/
def State.returnsBounded (s : State) : Prop := ∀ j : Fin 16, j.val < s.sp.val → (s.stack[j.val]).toNat ≤ 4096

/-- The invariant: canonical memory below 4096 (R80, R81), the PC and every return address in use in the range R49 states.
SP at most 16 and KEY at most 15 (R50, R56) are the types of the fields. -/
structure State.Inv (s : State) : Prop where
  memory : Memory.wf s.mem = true
  pc : s.pcBounded
  returns : s.returnsBounded

/-- The states the host can bring the block to: `new()`, then any host operations in any order (R63), `step()` among
them, each with any unspecified state `u` where a fault leaves one (R322). -/
inductive Reachable : State → Prop where
  | reset : Reachable State.reset
  | host {s : State} (u : State) (op : PortOp) : Reachable s → Reachable (hostPort u op s).2

/-- A safe step: one that raises no fault. -/
def State.stepSafe (s : State) : Prop := ∃ t, step s = .next t

/-! ### Sprites -/

/-- Whether row byte `byte`, drawn from column `x`, has a 1 bit at column `px` (R273). -/
def rowCovers (byte : Byte) (x px : Nat) : Bool := decide (x ≤ px ∧ px < x + 8) && spriteBit byte (px - x)

/-- Whether the sprite of `n` rows at address `a`, drawn at column `x` and row `y`, has a 1 bit at pixel `(px, py)`
(R281). -/
def spriteCovers (m : Memory) (a x y n px py : Nat) : Bool :=
  decide (y ≤ py ∧ py < y + n) && rowCovers (Memory.read m (a + (py - y))) x px

/-- R274: every 1 bit of row `byte` at column `x`, row `y` lands inside the 64 x 32 grid. -/
def rowInGrid (byte : Byte) (x y : Nat) : Prop := ∀ b, b < 8 → spriteBit byte b = true → x + b < 64 ∧ y < 32

/-- Row `r` of the sprite can be drawn: its byte is in memory (R88) and its 1 bits are in the grid (R274). -/
def spriteRowOk (m : Memory) (a x y r : Nat) : Prop := a + r < 4096 ∧ rowInGrid (Memory.read m (a + r)) x (y + r)

/-! ### Frames -/

/-- Every register outside `rs` holds what it held. -/
def SameRegsBut (rs : List Reg) (s t : State) : Prop := ∀ r, r ∉ rs → t.getV r = s.getV r

/-- Every byte of memory reads as it did. -/
def SameMemory (s t : State) : Prop := ∀ a, Memory.read t.mem a = Memory.read s.mem a

/-- Every byte of memory outside `n` bytes from `a` reads as it did. -/
def SameMemoryBut (a n : Nat) (s t : State) : Prop :=
  ∀ b, ¬(a ≤ b ∧ b < a + n) → Memory.read t.mem b = Memory.read s.mem b

/-- The call stack and its pointer are unchanged. -/
def SameStack (s t : State) : Prop := t.stack = s.stack ∧ t.sp = s.sp

/-- The state elements an instruction may write besides the general registers, the PC and the timers. -/
inductive Elem where
  | index
  | stack
  | memory
  | display
  | key
  | random
  deriving DecidableEq, Repr

/-- Everything but the registers `rs` and the elements `es` is unchanged, the PC and the timers apart. FAULT is always
unchanged. -/
structure Unchanged (es : List Elem) (rs : List Reg) (s t : State) : Prop where
  regs : SameRegsBut rs s t
  index : .index ∉ es → t.i = s.i
  stack : .stack ∉ es → SameStack s t
  memory : .memory ∉ es → SameMemory s t
  display : .display ∉ es → t.pix = s.pix
  key : .key ∉ es → t.key = s.key
  random : .random ∉ es → t.draws = s.draws
  fault : t.fault = s.fault

/-- DT and ST each counted down by 1 if above 0 (R147). -/
def TimersTicked (s t : State) : Prop := t.dt.toNat = s.dt.toNat - 1 ∧ t.st.toNat = s.st.toNat - 1

/-- DT and ST unchanged. -/
def SameTimers (s t : State) : Prop := t.dt = s.dt ∧ t.st = s.st

/-- What RETIRE does after an instruction of class A that does not skip and writes no timer: the PC 2 further, the timers
ticked (R145, R147). -/
def Retired (s t : State) : Prop := t.pc = s.pc + 2 ∧ TimersTicked s t

/-- Which registers an instruction may write (R44). -/
def writtenRegs : Instr → List Reg
  | .ldImm x _ | .addImm x _ | .ldReg x _ | .orReg x _ | .andReg x _ | .xorReg x _ | .rnd x _ | .ldVxDt x | .ldVxK x => [x]
  | .addReg x _ | .sub x _ | .shr x _ | .subn x _ | .shl x _ => [x, 15]
  | .drw _ _ _ | .addIVx _ => [15]
  | .ldVxMem x => (List.finRange 16).filter (fun r => r ≤ x)
  | .halt | .cls | .ret | .jp _ | .call _ | .seImm _ _ | .sneImm _ _ | .seReg _ _ | .sneReg _ _ | .ldI _ | .jpV0 _
  | .skp _ | .sknp _ | .ldDtVx _ | .ldStVx _ | .ldFVx _ | .ldBVx _ | .ldMemVx _ => []

/-- Which other elements an instruction may write (R46, R51, R55, R56, R93, R235). -/
def writtenElems : Instr → List Elem
  | .ldI _ | .addIVx _ | .ldFVx _ => [.index]
  | .call _ | .ret => [.stack]
  | .ldBVx _ | .ldMemVx _ => [.memory]
  | .cls | .drw _ _ _ => [.display]
  | .skp _ | .ldVxK _ => [.key]
  | .rnd _ _ => [.random]
  | .halt | .jp _ | .seImm _ _ | .sneImm _ _ | .seReg _ _ | .ldImm _ _ | .addImm _ _ | .ldReg _ _ | .orReg _ _
  | .andReg _ _ | .xorReg _ _ | .addReg _ _ | .sub _ _ | .shr _ _ | .subn _ _ | .shl _ _ | .sneReg _ _ | .jpV0 _
  | .sknp _ | .ldVxDt _ | .ldDtVx _ | .ldStVx _ | .ldVxMem _ => []

/-- How many bytes, from I on, an instruction stores (R93). -/
def storedBytes : Instr → Nat
  | .ldBVx _ => 3
  | .ldMemVx x => x.val + 1
  | .halt | .cls | .ret | .jp _ | .call _ | .seImm _ _ | .sneImm _ _ | .seReg _ _ | .ldImm _ _ | .addImm _ _
  | .ldReg _ _ | .orReg _ _ | .andReg _ _ | .xorReg _ _ | .addReg _ _ | .sub _ _ | .shr _ _ | .subn _ _ | .shl _ _
  | .sneReg _ _ | .ldI _ | .jpV0 _ | .rnd _ _ | .drw _ _ _ | .skp _ | .sknp _ | .ldVxDt _ | .ldVxK _ | .ldDtVx _
  | .ldStVx _ | .addIVx _ | .ldFVx _ | .ldVxMem _ => 0

/-- Whether an instruction is one of the six skips (R48). -/
def isSkip : Instr → Bool
  | .seImm _ _ | .sneImm _ _ | .seReg _ _ | .sneReg _ _ | .skp _ | .sknp _ => true
  | .halt | .cls | .ret | .jp _ | .call _ | .ldImm _ _ | .addImm _ _ | .ldReg _ _ | .orReg _ _ | .andReg _ _
  | .xorReg _ _ | .addReg _ _ | .sub _ _ | .shr _ _ | .subn _ _ | .shl _ _ | .ldI _ | .jpV0 _ | .rnd _ _ | .drw _ _ _
  | .ldVxDt _ | .ldVxK _ | .ldDtVx _ | .ldStVx _ | .addIVx _ | .ldFVx _ | .ldBVx _ | .ldMemVx _ | .ldVxMem _ => false

/-- The instruction completes from `s` in a state of which `P` holds. -/
def CompletesWith (i : Instr) (s : State) (P : State → Prop) : Prop := ∃ t, exec i s = .next t ∧ P t

end Sys2Proof.Machine
end

