-- ==== Sys2Proof/Certificates/Slice0/Obligations.lean ====
section
/-! DEFINITION. The statements about the machine, from the spec's numbered rules. -/

open Sys2Proof Sys2Proof.Machine

/-! ### Encoding and decoding (spec/30_encoding.md) -/

/-- R121: the fields of the word, as numbers. -/
def Obligations.FieldsOfTheWord : Prop :=
  ∀ w : Word, (fieldOp w).toNat = w.toNat / 4096 ∧ (fieldX w).val = w.toNat / 256 % 16 ∧
    (fieldY w).val = w.toNat / 16 % 16 ∧ (fieldN w).toNat = w.toNat % 16 ∧ (fieldNN w).toNat = w.toNat % 256 ∧
    (fieldNNN w).toNat = w.toNat % 4096

/-- R125: a word decodes to an instruction of a row exactly when it matches the row (`w AND mask = match`); 35 rows. -/
def Obligations.DecodeFollowsMatchAndMask : Prop :=
  opcodeTable.length = 35 ∧
  (∀ w i, decodeWord w = .ok i → (rowOf i).matches w = true ∧ rowOf i ∈ opcodeTable) ∧
  (∀ w r, r ∈ opcodeTable → r.matches w = true → ∃ i, decodeWord w = .ok i ∧ rowOf i = r)

/-- R124: no word matches two patterns. -/
def Obligations.PatternsDisjoint : Prop :=
  ∀ (w : Word) (r q : OpcodeRow), r ∈ opcodeTable → q ∈ opcodeTable → r.matches w = true → q.matches w = true → r = q

/-- R127, R143: the illegal words are exactly the listed ones (their number is not stated here), and executing one raises UnrecognizedOpcode with
the word and the PC. -/
def Obligations.IllegalWordsFault : Prop :=
  (∀ w, illegalWord w = true ↔ decodeWord w = .error (.unrecognizedOpcode w)) ∧
  (∀ w, illegalWord w = false ↔ ∃ i, decodeWord w = .ok i) ∧
  ∀ s w, s.fault = none → fetch s = .ok w → illegalWord w = true → step s = .fault (.unrecognizedOpcode w s.pc)

/-- Decoding the encoding of any well-formed instruction gives it back, on words and on bytes (R120, R121, R125). -/
def Obligations.DecodeEncodeAgree : Prop :=
  ∀ i : Instr, i.wf = true → decodeWord (encode i) = .ok i ∧
    ∀ rest, decodeBytes (encodeBytes i ++ rest) = .ok (i, rest)

/-- Encoding what a word decodes to gives the word back, so that no legal word has two meanings and no field is dropped;
what a word decodes to is well-formed (R124, R129). -/
def Obligations.EncodeDecodeAgree : Prop :=
  ∀ (w : Word) (i : Instr), decodeWord w = .ok i → encode i = w ∧ i.wf = true

/-- A few words written out from the patterns of R125 decode to the instructions they stand for. -/
def Obligations.WrittenOutWordsDecode : Prop :=
  decodeWord 0x00EE#16 = .ok .ret ∧ decodeWord 0x220A#16 = .ok (.call 0x20A#12) ∧
  decodeWord 0x3342#16 = .ok (.seImm 3 0x42#8) ∧ decodeWord 0x8127#16 = .ok (.subn 1 2) ∧
  decodeWord 0xA2F0#16 = .ok (.ldI 0x2F0#12) ∧ decodeWord 0xD125#16 = .ok (.drw 1 2 5) ∧
  decodeWord 0xE19E#16 = .ok (.skp 1) ∧ decodeWord 0xF315#16 = .ok (.ldDtVx 3) ∧
  decodeWord 0xF265#16 = .ok (.ldVxMem 2)

/-! ### The step cycle and faults (spec/30_encoding.md, 60_exceptions.md) -/

/-- R90: the high byte at the PC, the low byte after it; a PC of 4095 faults with 4096, a higher one with itself. -/
def Obligations.FetchIsBigEndian : Prop :=
  ∀ s : State,
    (s.pc.toNat < 4095 → ∃ w, fetch s = .ok w ∧ w.extractLsb' 8 8 = Memory.read s.mem s.pc.toNat ∧
      w.extractLsb' 0 8 = Memory.read s.mem (s.pc.toNat + 1) ∧
      w.toNat = (Memory.read s.mem s.pc.toNat).toNat * 256 + (Memory.read s.mem (s.pc.toNat + 1)).toNat) ∧
    (s.pc.toNat = 4095 → fetch s = .error (.memoryOutOfRange 4096)) ∧
    (4096 ≤ s.pc.toNat → fetch s = .error (.memoryOutOfRange s.pc.toNat))

/-- With no fault set, a step is the execution of the instruction the bytes at the PC decode to, and nothing around it;
where the fetch faults, the step ends in that fault (R140, R142, R143, R144). -/
def Obligations.StepRunsTheDecodedInstruction : Prop :=
  (∀ s w i, s.fault = none → fetch s = .ok w → decodeWord w = .ok i → i.wf = true → step s = exec i s) ∧
  (∀ s f, s.fault = none → fetch s = .error f → step s = .fault f)

/-- R141: a step with FAULT set reports that fault and changes no state. -/
def Obligations.FaultIsSticky : Prop :=
  ∀ (s u : State) (f : Fault), s.fault = some f →
    step s = .fault f ∧ stepOutcome s = .fault f ∧ stepPort u s = s

/-- R320, R322: the first fault is recorded in FAULT and reported, nothing else of the state after it is known (the free
`u`, with its 4096 bytes in canonical form), and every later step reports it again. The free state is the model's way to
say "unspecified" (log entry 1). -/
def Obligations.FirstFaultIsRecorded : Prop :=
  ∀ (s u : State) (f : Fault), s.fault = none → step s = .fault f →
    stepOutcome s = .fault f ∧ (stepPort u s).fault = some f ∧ Memory.wf (stepPort u s).mem = true ∧
    (Memory.wf u.mem = true → stepPort u s = { u with fault := some f }) ∧
    stepOutcome (stepPort u s) = .fault f ∧ ∀ u', stepPort u' (stepPort u s) = stepPort u s

/-- R321: which instruction can raise which fault, when, and what is recorded. Executing a decoded instruction raises
neither UnrecognizedOpcode nor RegisterIndexOutOfRange. -/
def Obligations.FaultKindsAndCauses : Prop :=
  ∀ (i : Instr) (s : State) (f : Fault), exec i s = .fault f →
    (f = .stackOverflow s.pc ∧ (∃ nnn, i = .call nnn) ∧ s.sp.val = 16) ∨
    (f = .stackUnderflow s.pc ∧ i = .ret ∧ s.sp.val = 0) ∨
    (∃ a, f = .memoryOutOfRange a ∧ 4096 ≤ a ∧
      ((∃ x y n, i = .drw x y n) ∨ (∃ x, i = .ldBVx x) ∨ (∃ x, i = .ldMemVx x) ∨ ∃ x, i = .ldVxMem x)) ∨
    (∃ c r, f = .displayOutOfRange c r ∧ (64 ≤ c ∨ 32 ≤ r) ∧ ∃ x y n, i = .drw x y n) ∨
    (∃ n, f = .indexOverflow n ∧ 0xFFFF < n ∧ ∃ x, i = .addIVx x ∧ n = s.i.toNat + (s.getV x).toNat)

/-- R128: every instruction and every step has a meaning; nothing is refused. -/
def Obligations.NothingIsRefused : Prop :=
  (∀ i s r, exec i s ≠ .refused r) ∧ ∀ s r, step s ≠ .refused r

/-- The PC and the timers by class (R145, R147, R148): class A moves the PC 2, or 4 for a taken skip, and ticks after the
instruction's own write of a timer; class P ticks nothing; HALT and a blocked LD_VX_K change nothing at all. -/
def Obligations.RetireByClass : Prop :=
  ∀ (i : Instr) (s t : State), exec i s = .next t →
    (retireClass i = .advance →
      (t.pc = s.pc + 2 ∨ (isSkip i = true ∧ t.pc = s.pc + 4)) ∧
      ((∀ x, i ≠ .ldDtVx x) → t.dt.toNat = s.dt.toNat - 1) ∧ ((∀ x, i ≠ .ldStVx x) → t.st.toNat = s.st.toNat - 1)) ∧
    (retireClass i = .setsPc → SameTimers s t) ∧
    (retireClass i = .halts → t = s) ∧
    (retireClass i = .waits → (s.key = none → t = s) ∧ (s.key ≠ none → Retired s t))

/-- The frame of every instruction: it changes no register, no other element and no byte of memory but those its rule
names (R44, R46, R51, R55, R56, R93, R235); FAULT is never written by an instruction that completes. The bytes stored are
the first `storedBytes i` from I. -/
def Obligations.FrameOfEveryInstruction : Prop :=
  ∀ (i : Instr) (s t : State), Memory.wf s.mem = true → exec i s = .next t →
    Unchanged (writtenElems i) (writtenRegs i) s t ∧ SameMemoryBut (indexAddr s 0) (storedBytes i) s t

/-! ### Reset (spec/10_state.md R59, 70_reset_and_hazards.md) -/

/-- R59: the value of every state element after reset. -/
def Obligations.ResetValues : Prop :=
  (∀ r, State.reset.getV r = 0) ∧ State.reset.i = 0 ∧ State.reset.pc = 0x200#16 ∧ State.reset.sp = 0 ∧
  (∀ j : Fin 16, State.reset.stack[j.val] = 0) ∧ State.reset.dt = 0 ∧ State.reset.st = 0 ∧
  (∀ a, a < 80 → Memory.read State.reset.mem a = Config.fontRom a) ∧
  (∀ a, 80 ≤ a → a < 4096 → Memory.read State.reset.mem a = 0) ∧
  (∀ x y, x < 64 → y < 32 → State.reset.pix.pixel x y = false) ∧ State.reset.key = none ∧ State.reset.fault = none

/-- A step from reset with no program loaded halts: R354, which the spec derives from R350 and R85. That the answer is the
next state itself is the model's choice (log entry 4). -/
def Obligations.ResetThenStepHalts : Prop :=
  step State.reset = .next State.reset ∧ stepOutcome State.reset = .halted

/-! ### Memory (spec/20_memory.md) -/

/-- R88, R89: reads and writes below 4096 succeed, the others fault with the address; a write changes that byte alone. -/
def Obligations.MemoryInterface : Prop :=
  ∀ s : State, Memory.wf s.mem = true → ∀ (a : Nat) (v : Byte),
    (a < 4096 → memRead s a = .ok (Memory.read s.mem a) ∧
      ∃ t, memWrite s a v = .ok t ∧ t = s.setMem t.mem ∧ Memory.wf t.mem = true ∧
        ∀ b, Memory.read t.mem b = if b = a then v else Memory.read s.mem b) ∧
    (4096 ≤ a → memRead s a = .error (.memoryOutOfRange a) ∧ memWrite s a v = .error (.memoryOutOfRange a))

/-- R96, R97: a program of at most 3584 bytes is stored from 512 on and nothing else changes; a longer one is refused and
changes nothing. -/
def Obligations.LoaderWritesTheProgramOnly : Prop :=
  ∀ (s : State) (bytes : List Byte), Memory.wf s.mem = true →
    (bytes.length ≤ 3584 → ∃ t, loadProgram bytes s = (true, t) ∧ t = s.setMem t.mem ∧ Memory.wf t.mem = true ∧
      (∀ k (h : k < bytes.length), Memory.read t.mem (512 + k) = bytes[k]) ∧
      ∀ a, ¬(512 ≤ a ∧ a < 512 + bytes.length) → Memory.read t.mem a = Memory.read s.mem a) ∧
    (3584 < bytes.length → loadProgram bytes s = (false, s))

/-- A stored byte is what the next fetch of its address sees (R98, R101). -/
def Obligations.FetchSeesTheLastStore : Prop :=
  ∀ (s t : State) (v : Byte) (w : Word), Memory.wf s.mem = true → fetch t = .ok w →
    (memWrite s s.pc.toNat v = .ok t → w.extractLsb' 8 8 = v) ∧
    (memWrite s (s.pc.toNat + 1) v = .ok t → w.extractLsb' 0 8 = v)

/-! ### Control transfer (spec/40_control.md) -/

/-- R200: HALT changes nothing, and the step reports Halted. That the answer is the next state `s` itself, with the outcome
read off beside it, is the model's choice (log entry 4). -/
def Obligations.HaltChangesNothing : Prop :=
  (∀ s, exec .halt s = .next s) ∧
  ∀ s, s.fault = none → fetch s = .ok 0x0000#16 → step s = .next s ∧ stepOutcome s = .halted

/-- R201: RET takes the last return address off the stack into the PC; with an empty stack it raises StackUnderflow. -/
def Obligations.RetPops : Prop :=
  ∀ s : State,
    (∀ k (h : k < 16), s.sp.val = k + 1 → CompletesWith .ret s fun t =>
      t.pc = s.stack[k] ∧ t.sp.val = k ∧ t.stack = s.stack ∧ SameTimers s t ∧ Unchanged [.stack] [] s t) ∧
    (s.sp.val = 0 → exec .ret s = .fault (.stackUnderflow s.pc))

/-- R202: CALL pushes PC + 2 and jumps; with 16 entries in use it raises StackOverflow. -/
def Obligations.CallPushes : Prop :=
  ∀ (s : State) (nnn : BitVec 12),
    (∀ h : s.sp.val < 16, CompletesWith (.call nnn) s fun t =>
      t.pc.toNat = nnn.toNat ∧ t.sp.val = s.sp.val + 1 ∧ t.stack = s.stack.set s.sp.val (s.pc + 2) ∧
      SameTimers s t ∧ Unchanged [.stack] [] s t) ∧
    (s.sp.val = 16 → exec (.call nnn) s = .fault (.stackOverflow s.pc))

/-- A CALL and the RET that matches it come back to the instruction after the CALL with the stack depth as before
(R201, R202; 90_conflicts.md C1). The subroutine may do anything that leaves the stack as the CALL did. -/
def Obligations.CallThenRetReturns : Prop :=
  ∀ (s t r : State) (nnn : BitVec 12), exec (.call nnn) s = .next t → SameStack t r →
    CompletesWith .ret r fun q => q.pc = s.pc + 2 ∧ q.sp = s.sp

/-- R203: JP. -/
def Obligations.JumpSetsPc : Prop :=
  ∀ (s : State) (nnn : BitVec 12), CompletesWith (.jp nnn) s fun t =>
    t.pc.toNat = nnn.toNat ∧ SameTimers s t ∧ Unchanged [] [] s t

/-- R208: JP_V0 adds V0, not reduced to 12 bits. -/
def Obligations.IndexedJumpAddsV0 : Prop :=
  ∀ (s : State) (nnn : BitVec 12), CompletesWith (.jpV0 nnn) s fun t =>
    t.pc.toNat = nnn.toNat + (s.getV 0).toNat ∧ t.pc.toNat ≤ 0x10FE ∧ SameTimers s t ∧ Unchanged [] [] s t

/-- R204, R205: the skips on an immediate. -/
def Obligations.SkipsOnImmediate : Prop :=
  ∀ (s : State) (x : Reg) (nn : Byte),
    CompletesWith (.seImm x nn) s (fun t =>
      t.pc = (if s.getV x = nn then s.pc + 4 else s.pc + 2) ∧ TimersTicked s t ∧ Unchanged [] [] s t) ∧
    CompletesWith (.sneImm x nn) s (fun t =>
      t.pc = (if s.getV x ≠ nn then s.pc + 4 else s.pc + 2) ∧ TimersTicked s t ∧ Unchanged [] [] s t)

/-- R206, R207: the skips on a register, and what they do with x = y. -/
def Obligations.SkipsOnRegister : Prop :=
  ∀ (s : State) (x y : Reg),
    CompletesWith (.seReg x y) s (fun t =>
      t.pc = (if s.getV x = s.getV y then s.pc + 4 else s.pc + 2) ∧ (x = y → t.pc = s.pc + 4) ∧ TimersTicked s t ∧
      Unchanged [] [] s t) ∧
    CompletesWith (.sneReg x y) s (fun t =>
      t.pc = (if s.getV x ≠ s.getV y then s.pc + 4 else s.pc + 2) ∧ (x = y → t.pc = s.pc + 2) ∧ TimersTicked s t ∧
      Unchanged [] [] s t)

/-! ### Registers and arithmetic (spec/41_alu.md) -/

/-- R220, R222: the loads. -/
def Obligations.RegisterLoads : Prop :=
  ∀ (s : State) (x y : Reg) (nn : Byte),
    CompletesWith (.ldImm x nn) s (fun t => t.getV x = nn ∧ Retired s t ∧ Unchanged [] [x] s t) ∧
    CompletesWith (.ldReg x y) s (fun t => t.getV x = s.getV y ∧ Retired s t ∧ Unchanged [] [x] s t)

/-- R223, R224, R225: OR, AND and XOR bit by bit; only Vx is written. -/
def Obligations.LogicBitByBit : Prop :=
  ∀ (s : State) (x y : Reg),
    CompletesWith (.orReg x y) s (fun t => (∀ k, k < 8 → (t.getV x).getLsbD k = ((s.getV x).getLsbD k || (s.getV y).getLsbD k)) ∧
      Retired s t ∧ Unchanged [] [x] s t) ∧
    CompletesWith (.andReg x y) s (fun t => (∀ k, k < 8 → (t.getV x).getLsbD k = ((s.getV x).getLsbD k && (s.getV y).getLsbD k)) ∧
      Retired s t ∧ Unchanged [] [x] s t) ∧
    CompletesWith (.xorReg x y) s (fun t => (∀ k, k < 8 → (t.getV x).getLsbD k = ((s.getV x).getLsbD k ^^ (s.getV y).getLsbD k)) ∧
      (x = y → t.getV x = 0) ∧ Retired s t ∧ Unchanged [] [x] s t)

/-- R221: ADD_IMM wraps modulo 256 and leaves VF alone (unless x names it). -/
def Obligations.AddImmediateWraps : Prop :=
  ∀ (s : State) (x : Reg) (nn : Byte), CompletesWith (.addImm x nn) s fun t =>
    (t.getV x).toNat = ((s.getV x).toNat + nn.toNat) % 256 ∧ (x ≠ 15 → t.getV 15 = s.getV 15) ∧ Retired s t ∧
    Unchanged [] [x] s t

/-- R226: ADD_REG, the sum modulo 256 and the carry, the carry standing where x is VF. -/
def Obligations.AddRegisterCarries : Prop :=
  ∀ (s : State) (x y : Reg), CompletesWith (.addReg x y) s fun t =>
    (x ≠ 15 → (t.getV x).toNat = ((s.getV x).toNat + (s.getV y).toNat) % 256) ∧
    t.getV 15 = (if 255 < (s.getV x).toNat + (s.getV y).toNat then 1 else 0) ∧ Retired s t ∧ Unchanged [] [x, 15] s t

/-- R227: SUB with the source's borrow expression. -/
def Obligations.SubtractWithSourceBorrow : Prop :=
  ∀ (s : State) (x y : Reg), CompletesWith (.sub x y) s fun t =>
    (x ≠ 15 → (t.getV x).toNat =
      if (s.getV x).toNat < (s.getV y).toNat then (((s.getV y).toNat : Int) - (s.getV x).toNat + 1).natAbs % 256
      else (s.getV x).toNat - (s.getV y).toNat) ∧
    t.getV 15 = (if (s.getV x).toNat < (s.getV y).toNat then 0 else 1) ∧ Retired s t ∧ Unchanged [] [x, 15] s t

/-- R229: SUBN with the source's borrow expression, which for Vx > Vy is Vx - Vy - 1. -/
def Obligations.ReverseSubtractWithSourceBorrow : Prop :=
  ∀ (s : State) (x y : Reg), CompletesWith (.subn x y) s fun t =>
    (x ≠ 15 → (t.getV x).toNat =
      if (s.getV y).toNat < (s.getV x).toNat then (((s.getV y).toNat : Int) - (s.getV x).toNat + 1).natAbs % 256
      else (((s.getV y).toNat : Int) - (s.getV x).toNat).natAbs % 256) ∧
    (x ≠ 15 → (s.getV y).toNat < (s.getV x).toNat → (t.getV x).toNat = (s.getV x).toNat - (s.getV y).toNat - 1) ∧
    t.getV 15 = (if (s.getV y).toNat < (s.getV x).toNat then 0 else 1) ∧ Retired s t ∧ Unchanged [] [x, 15] s t

/-- R228: SHR by one bit, the bit shifted out in VF; where x is VF the result stands; Vy is not read (no premise or result
mentions it). -/
def Obligations.ShiftRight : Prop :=
  ∀ (s : State) (x y : Reg), CompletesWith (.shr x y) s fun t =>
    (t.getV x).toNat = (s.getV x).toNat / 2 ∧ (x ≠ 15 → (t.getV 15).toNat = (s.getV x).toNat % 2) ∧ Retired s t ∧
    Unchanged [] [x, 15] s t

/-- R230: SHL by one bit, the bit shifted out in VF; where x is VF the result stands. -/
def Obligations.ShiftLeft : Prop :=
  ∀ (s : State) (x y : Reg), CompletesWith (.shl x y) s fun t =>
    (t.getV x).toNat = (s.getV x).toNat * 2 % 256 ∧ (x ≠ 15 → (t.getV 15).toNat = (s.getV x).toNat / 128) ∧ Retired s t ∧
    Unchanged [] [x, 15] s t

/-- R231, R235: RND stores the drawn byte masked with nn and draws exactly one byte; no other instruction draws one. The
drawn byte is the free `Config.randomByte`, so this holds of every value (log entry 2). -/
def Obligations.RandomByteIsMasked : Prop :=
  (∀ (s : State) (x : Reg) (nn : Byte), CompletesWith (.rnd x nn) s fun t =>
    t.getV x = Config.randomByte s.draws &&& nn ∧ (∀ k, nn.getLsbD k = false → (t.getV x).getLsbD k = false) ∧
    t.draws = s.draws + 1 ∧ Retired s t ∧ Unchanged [.random] [x] s t) ∧
  ∀ i s t, (∀ x nn, i ≠ .rnd x nn) → exec i s = .next t → t.draws = s.draws

/-! ### The index register and memory transfers (spec/42_index_memory.md) -/

/-- R250, R252: I from an address, and from five times Vx, not masked. -/
def Obligations.IndexLoads : Prop :=
  ∀ (s : State) (x : Reg) (nnn : BitVec 12),
    CompletesWith (.ldI nnn) s (fun t => t.i.toNat = nnn.toNat ∧ Retired s t ∧ Unchanged [.index] [] s t) ∧
    CompletesWith (.ldFVx x) s (fun t => t.i.toNat = (s.getV x).toNat * 5 ∧ Retired s t ∧ Unchanged [.index] [] s t)

/-- R251: ADD_I_VX, its flag, and IndexOverflow above 0xFFFF. -/
def Obligations.AddToIndex : Prop :=
  ∀ (s : State) (x : Reg),
    (s.i.toNat + (s.getV x).toNat ≤ 0xFFFF → CompletesWith (.addIVx x) s fun t =>
      t.i.toNat = s.i.toNat + (s.getV x).toNat ∧
      t.getV 15 = (if 0xFFF < s.i.toNat + (s.getV x).toNat then 1 else 0) ∧ Retired s t ∧ Unchanged [.index] [15] s t) ∧
    (0xFFFF < s.i.toNat + (s.getV x).toNat →
      exec (.addIVx x) s = .fault (.indexOverflow (s.i.toNat + (s.getV x).toNat)))

/-- R253: the three decimal digits of Vx at I, I + 1 and I + 2, nothing else stored, I unchanged; past the end of memory
the first failing address is reported. -/
def Obligations.DecimalDigitsStored : Prop :=
  ∀ (s : State) (x : Reg), Memory.wf s.mem = true →
    (s.i.toNat + 2 < 4096 → CompletesWith (.ldBVx x) s fun t =>
      (Memory.read t.mem s.i.toNat).toNat = (s.getV x).toNat / 100 ∧
      (Memory.read t.mem (s.i.toNat + 1)).toNat = (s.getV x).toNat / 10 % 10 ∧
      (Memory.read t.mem (s.i.toNat + 2)).toNat = (s.getV x).toNat % 10 ∧
      SameMemoryBut (indexAddr s 0) 3 s t ∧ Retired s t ∧ Unchanged [.memory] [] s t) ∧
    (4096 ≤ s.i.toNat + 2 → exec (.ldBVx x) s = .fault (.memoryOutOfRange (max s.i.toNat 4096)))

/-- R254: V0 to Vx stored from I up, nothing else stored, I unchanged; past the end the first failing address is
reported. -/
def Obligations.RegistersStored : Prop :=
  ∀ (s : State) (x : Reg), Memory.wf s.mem = true →
    (s.i.toNat + x.val < 4096 → CompletesWith (.ldMemVx x) s fun t =>
      (∀ r : Reg, r ≤ x → Memory.read t.mem (indexAddr s r.val) = s.getV r) ∧
      SameMemoryBut (indexAddr s 0) (x.val + 1) s t ∧ Retired s t ∧ Unchanged [.memory] [] s t) ∧
    (4096 ≤ s.i.toNat + x.val → exec (.ldMemVx x) s = .fault (.memoryOutOfRange (max s.i.toNat 4096)))

/-- R255: V0 to Vx loaded from I up, the registers above Vx and I unchanged; past the end the first failing address is
reported. -/
def Obligations.RegistersLoaded : Prop :=
  ∀ (s : State) (x : Reg),
    (s.i.toNat + x.val < 4096 → CompletesWith (.ldVxMem x) s fun t =>
      (∀ r : Reg, r ≤ x → t.getV r = Memory.read s.mem (indexAddr s r.val)) ∧
      (∀ r : Reg, x < r → t.getV r = s.getV r) ∧ Retired s t ∧ Unchanged [] (writtenRegs (.ldVxMem x)) s t) ∧
    (4096 ≤ s.i.toNat + x.val → exec (.ldVxMem x) s = .fault (.memoryOutOfRange (max s.i.toNat 4096)))

/-- Storing registers and loading them back from the same I gives every one of them back (R254, R255). -/
def Obligations.StoreThenLoadRegisters : Prop :=
  ∀ (s t q : State) (x : Reg), Memory.wf s.mem = true → exec (.ldMemVx x) s = .next t →
    q.mem = t.mem → q.i = t.i → CompletesWith (.ldVxMem x) q fun p => ∀ r : Reg, r ≤ x → p.getV r = s.getV r

/-! ### The display (spec/43_display.md) -/

/-- R280: CLS clears every pixel; the count of set pixels is then 0. -/
def Obligations.ClearScreen : Prop :=
  ∀ s : State, CompletesWith .cls s fun t =>
    (∀ x y, x < 64 → y < 32 → t.pix.pixel x y = false) ∧ t.pix.countSet = 0 ∧ Retired s t ∧ Unchanged [.display] [] s t

/-- R277: the count is the sum of the pixels over the grid, at most 2048, and asking for it changes nothing. -/
def Obligations.SetPixelCount : Prop :=
  ∀ p : Display, p.countSet = ∑ x ∈ Finset.range 64, ∑ y ∈ Finset.range 32, (if p.pixel x y then 1 else 0) ∧
    p.countSet ≤ 2048 ∧
    ∀ (u s : State), hostPort u .countSetPixels s = (.number s.pix.countSet, s)

/-- DRW on a sprite whose bytes are in memory and whose 1 bits are in the grid: exactly the pixels the sprite covers flip,
and VF says whether one of them was 1 (R273, R275, R281). -/
def Obligations.SpriteIsXored : Prop :=
  ∀ (s : State) (x y : Reg) (n : Nat),
    (∀ r, r < n → spriteRowOk s.mem s.i.toNat (s.getV x).toNat (s.getV y).toNat r) →
    CompletesWith (.drw x y n) s fun t =>
      (∀ px py, t.pix.pixel px py =
        (s.pix.pixel px py ^^ spriteCovers s.mem s.i.toNat (s.getV x).toNat (s.getV y).toNat n px py)) ∧
      (t.getV 15 = 0 ∨ t.getV 15 = 1) ∧
      (t.getV 15 = 1 ↔ ∃ px py, spriteCovers s.mem s.i.toNat (s.getV x).toNat (s.getV y).toNat n px py = true ∧
        s.pix.pixel px py = true) ∧
      Retired s t ∧ Unchanged [.display] [15] s t

/-- DRW reports the first failing access: a row's byte at 4096 or beyond, else the row's first 1 bit, most significant
first, outside the grid (R274, R325). -/
def Obligations.SpriteFirstFailingAccess : Prop :=
  ∀ (s : State) (x y : Reg) (n r : Nat), r < n →
    (∀ q, q < r → spriteRowOk s.mem s.i.toNat (s.getV x).toNat (s.getV y).toNat q) →
    (4096 ≤ s.i.toNat + r → exec (.drw x y n) s = .fault (.memoryOutOfRange (s.i.toNat + r))) ∧
    (s.i.toNat + r < 4096 → ∀ b, b < 8 → spriteBit (Memory.read s.mem (s.i.toNat + r)) b = true →
      ¬((s.getV x).toNat + b < 64 ∧ (s.getV y).toNat + r < 32) →
      (∀ c, c < b → spriteBit (Memory.read s.mem (s.i.toNat + r)) c = true →
        (s.getV x).toNat + c < 64 ∧ (s.getV y).toNat + r < 32) →
      exec (.drw x y n) s = .fault (.displayOutOfRange ((s.getV x).toNat + b) ((s.getV y).toNat + r)))

/-- Drawing the same sprite twice restores every pixel, and the second draw reports a collision exactly when the sprite
covers a pixel that was 0 before the first (R275, R281; 95_test_vectors.md E5). Neither coordinate is VF, which the first
draw writes. -/
def Obligations.DrawingTwiceRestores : Prop :=
  ∀ (s t : State) (x y : Reg) (n : Nat), x ≠ 15 → y ≠ 15 → exec (.drw x y n) s = .next t →
    CompletesWith (.drw x y n) t fun q =>
      (∀ px py, q.pix.pixel px py = s.pix.pixel px py) ∧
      (q.getV 15 = 1 ↔ ∃ px py, spriteCovers s.mem s.i.toNat (s.getV x).toNat (s.getV y).toNat n px py = true ∧
        s.pix.pixel px py = false)

/-! ### The keypad (spec/44_keypad.md) -/

/-- R295: SKP skips if the pending key is Vx, and consumes the key in either case. -/
def Obligations.SkipIfKeyConsumes : Prop :=
  ∀ (s : State) (x : Reg), CompletesWith (.skp x) s fun t =>
    t.pc = (if ∃ k, s.key = some k ∧ k.val = (s.getV x).toNat then s.pc + 4 else s.pc + 2) ∧ t.key = none ∧
    TimersTicked s t ∧ Unchanged [.key] [] s t

/-- R296: SKNP skips unless the pending key is Vx, and keeps the key. -/
def Obligations.SkipIfNotKeyKeeps : Prop :=
  ∀ (s : State) (x : Reg), CompletesWith (.sknp x) s fun t =>
    t.pc = (if ∃ k, s.key = some k ∧ k.val = (s.getV x).toNat then s.pc + 2 else s.pc + 4) ∧ t.key = s.key ∧
    TimersTicked s t ∧ Unchanged [] [] s t

/-- R297: LD_VX_K takes a pending key; with none it waits, nothing changes, and the step reports Waiting. That a wait's
answer is the next state `s` itself, with the outcome read off beside it, is the model's choice (log entry 4). -/
def Obligations.KeyWait : Prop :=
  ∀ (s : State) (x : Reg),
    (∀ k, s.key = some k → CompletesWith (.ldVxK x) s fun t =>
      (t.getV x).toNat = k.val ∧ t.key = none ∧ Retired s t ∧ Unchanged [.key] [x] s t) ∧
    (s.key = none → exec (.ldVxK x) s = .next s) ∧
    (∀ w, s.fault = none → fetch s = .ok w → decodeWord w = .ok (.ldVxK x) →
      stepOutcome s = if s.key = none then .waiting else .continued)

/-- R290, R291, R292, R293: the keypad's operations; a press of a code of 16 or more is refused (R294). -/
def Obligations.KeypadOperations : Prop :=
  ∀ (s : State) (k : Key),
    pressKey k.val s = (true, s.setKey (some k)) ∧ (∀ n, 16 ≤ n → pressKey n s = (false, s)) ∧
    (takeKey s).1 = s.key ∧ (takeKey s).2 = s.setKey none ∧
    (∀ n, wasPressed s n = true ↔ ∃ j, s.key = some j ∧ j.val = n) ∧
    (anyPressed s = true ↔ s.key ≠ none) ∧
    ∀ (u : State) n, hostPort u (.wasPressed n) s = (.flag (wasPressed s n), s) ∧
      hostPort u .anyPressed s = (.flag (anyPressed s), s)

/-! ### The timers (spec/45_timers.md) -/

/-- R310, R311, R312: the timer instructions; RETIRE's decrement follows in the same step. -/
def Obligations.TimerInstructions : Prop :=
  ∀ (s : State) (x : Reg),
    CompletesWith (.ldVxDt x) s (fun t => t.getV x = s.dt ∧ Retired s t ∧ Unchanged [] [x] s t) ∧
    CompletesWith (.ldDtVx x) s (fun t => t.dt.toNat = (s.getV x).toNat - 1 ∧ t.st.toNat = s.st.toNat - 1 ∧
      t.pc = s.pc + 2 ∧ Unchanged [] [] s t) ∧
    CompletesWith (.ldStVx x) s (fun t => t.st.toNat = (s.getV x).toNat - 1 ∧ t.dt.toNat = s.dt.toNat - 1 ∧
      t.pc = s.pc + 2 ∧ Unchanged [] [] s t)

/-! ### The host's ports (spec/10_state.md R60-R63, 30_encoding.md R151) -/

/-- R60, R61: presetting and reading registers. Where populate_registers faults, FAULT holds this fault if it held none
and keeps the one it held otherwise (log entry 7), and the rest of the state is that of the free `u` (log entry 1). -/
def Obligations.RegisterPorts : Prop :=
  ∀ (u s : State) (values : List Byte),
    (values.length ≤ 16 → ∃ t, populateRegisters u values s = (none, t) ∧ t = { s with v := t.v } ∧
      ∀ r : Reg, t.getV r = if h : r.val < values.length then values[r.val] else s.getV r) ∧
    (16 < values.length → (populateRegisters u values s).1 = some (.registerIndexOutOfRange 16) ∧
      (s.fault = none → (populateRegisters u values s).2.fault = some (.registerIndexOutOfRange 16)) ∧
      (∀ g, s.fault = some g → (populateRegisters u values s).2.fault = some g) ∧
      (Memory.wf u.mem = true →
        (populateRegisters u values s).2 = { u with fault := (populateRegisters u values s).2.fault })) ∧
    (∀ r : Reg, registerValue r.val s = some (s.getV r)) ∧ (∀ n, 16 ≤ n → registerValue n s = none)

/-- `run()` returns only with Halted or a fault (R151, R152). -/
def Obligations.RunEndsOnHaltOrFault : Prop :=
  ∀ (u s t : State) (fuel : Nat) (o : StepOutcome), runPort u fuel s = some (o, t) →
    o = .halted ∨ ∃ f, o = .fault f ∧ t.fault = some f

/-! ### What an instruction cannot see -/

/-- R53: no instruction reads ST. Changing it changes nothing an instruction does but ST itself. -/
def Obligations.SoundTimerIsNeverRead : Prop :=
  ∀ (i : Instr) (s : State) (b : Byte),
    (∀ t, exec i s = .next t → ∃ c, exec i (s.setSt b) = .next (t.setSt c)) ∧
    (∀ f, exec i s = .fault f → exec i (s.setSt b) = .fault f)

/-- R50: a stack entry not in use keeps its stale value, which nothing can read. Changing such an entry changes nothing an
instruction does but the entries not in use. -/
def Obligations.StaleStackEntriesAreNeverRead : Prop :=
  ∀ (i : Instr) (s : State) (k : Nat) (h : k < 16) (w : Word), s.sp.val ≤ k →
    (∀ t, exec i s = .next t → ∃ t', exec i (s.setStack (s.stack.set k w) s.sp) = .next t' ∧
      t' = { t with stack := t'.stack } ∧ ∀ j (hj : j < 16), j < t.sp.val → t'.stack[j] = t.stack[j]) ∧
    (∀ f, exec i s = .fault f → exec i (s.setStack (s.stack.set k w) s.sp) = .fault f)

/-! ### Invariants -/

/-- The invariant holds at reset. -/
def Obligations.InvariantAtReset : Prop := State.reset.Inv

/-- Every step keeps the invariant: memory canonical and inside 4096 bytes, the PC at most 0x10FE, every return address
in use at most 4096 (R49, R50, R81). -/
def Obligations.InvariantKeptByStep : Prop := ∀ s t : State, s.Inv → step s = .next t → t.Inv

/-- Whatever the host does, in whatever order (R63), memory keeps its canonical form, after a fault too, and a block that
has not faulted meets the whole invariant. -/
def Obligations.InvariantWhileNotFaulted : Prop :=
  ∀ s : State, Reachable s → Memory.wf s.mem = true ∧ (s.fault = none → s.Inv)
end

