-- ==== Sys2Proof/Laws/State.lean ====
section
/-! SUPPORT. What each update of the state does to each field: the simp set that keeps later proofs from unfolding a
record update. -/

namespace Sys2Proof.Machine

variable (s : State)

/-! ### `setV` -/

@[simp] theorem State.setV_v (r : Reg) (b : Byte) : (s.setV r b).v = s.v.set r.val b := rfl
@[simp] theorem State.setV_i (r : Reg) (b : Byte) : (s.setV r b).i = s.i := rfl
@[simp] theorem State.setV_pc (r : Reg) (b : Byte) : (s.setV r b).pc = s.pc := rfl
@[simp] theorem State.setV_stack (r : Reg) (b : Byte) : (s.setV r b).stack = s.stack := rfl
@[simp] theorem State.setV_sp (r : Reg) (b : Byte) : (s.setV r b).sp = s.sp := rfl
@[simp] theorem State.setV_dt (r : Reg) (b : Byte) : (s.setV r b).dt = s.dt := rfl
@[simp] theorem State.setV_st (r : Reg) (b : Byte) : (s.setV r b).st = s.st := rfl
@[simp] theorem State.setV_mem (r : Reg) (b : Byte) : (s.setV r b).mem = s.mem := rfl
@[simp] theorem State.setV_pix (r : Reg) (b : Byte) : (s.setV r b).pix = s.pix := rfl
@[simp] theorem State.setV_key (r : Reg) (b : Byte) : (s.setV r b).key = s.key := rfl
@[simp] theorem State.setV_fault (r : Reg) (b : Byte) : (s.setV r b).fault = s.fault := rfl
@[simp] theorem State.setV_draws (r : Reg) (b : Byte) : (s.setV r b).draws = s.draws := rfl

/-! ### `setVF` -/

@[simp] theorem State.setVF_v (b : Byte) : (s.setVF b).v = s.v.set 15 b := rfl
@[simp] theorem State.setVF_i (b : Byte) : (s.setVF b).i = s.i := rfl
@[simp] theorem State.setVF_pc (b : Byte) : (s.setVF b).pc = s.pc := rfl
@[simp] theorem State.setVF_stack (b : Byte) : (s.setVF b).stack = s.stack := rfl
@[simp] theorem State.setVF_sp (b : Byte) : (s.setVF b).sp = s.sp := rfl
@[simp] theorem State.setVF_dt (b : Byte) : (s.setVF b).dt = s.dt := rfl
@[simp] theorem State.setVF_st (b : Byte) : (s.setVF b).st = s.st := rfl
@[simp] theorem State.setVF_mem (b : Byte) : (s.setVF b).mem = s.mem := rfl
@[simp] theorem State.setVF_pix (b : Byte) : (s.setVF b).pix = s.pix := rfl
@[simp] theorem State.setVF_key (b : Byte) : (s.setVF b).key = s.key := rfl
@[simp] theorem State.setVF_fault (b : Byte) : (s.setVF b).fault = s.fault := rfl
@[simp] theorem State.setVF_draws (b : Byte) : (s.setVF b).draws = s.draws := rfl

/-! ### `setI` -/

@[simp] theorem State.setI_v (w : Word) : (s.setI w).v = s.v := rfl
@[simp] theorem State.setI_i (w : Word) : (s.setI w).i = w := rfl
@[simp] theorem State.setI_pc (w : Word) : (s.setI w).pc = s.pc := rfl
@[simp] theorem State.setI_stack (w : Word) : (s.setI w).stack = s.stack := rfl
@[simp] theorem State.setI_sp (w : Word) : (s.setI w).sp = s.sp := rfl
@[simp] theorem State.setI_dt (w : Word) : (s.setI w).dt = s.dt := rfl
@[simp] theorem State.setI_st (w : Word) : (s.setI w).st = s.st := rfl
@[simp] theorem State.setI_mem (w : Word) : (s.setI w).mem = s.mem := rfl
@[simp] theorem State.setI_pix (w : Word) : (s.setI w).pix = s.pix := rfl
@[simp] theorem State.setI_key (w : Word) : (s.setI w).key = s.key := rfl
@[simp] theorem State.setI_fault (w : Word) : (s.setI w).fault = s.fault := rfl
@[simp] theorem State.setI_draws (w : Word) : (s.setI w).draws = s.draws := rfl

/-! ### `setPc` -/

@[simp] theorem State.setPc_v (w : Word) : (s.setPc w).v = s.v := rfl
@[simp] theorem State.setPc_i (w : Word) : (s.setPc w).i = s.i := rfl
@[simp] theorem State.setPc_pc (w : Word) : (s.setPc w).pc = w := rfl
@[simp] theorem State.setPc_stack (w : Word) : (s.setPc w).stack = s.stack := rfl
@[simp] theorem State.setPc_sp (w : Word) : (s.setPc w).sp = s.sp := rfl
@[simp] theorem State.setPc_dt (w : Word) : (s.setPc w).dt = s.dt := rfl
@[simp] theorem State.setPc_st (w : Word) : (s.setPc w).st = s.st := rfl
@[simp] theorem State.setPc_mem (w : Word) : (s.setPc w).mem = s.mem := rfl
@[simp] theorem State.setPc_pix (w : Word) : (s.setPc w).pix = s.pix := rfl
@[simp] theorem State.setPc_key (w : Word) : (s.setPc w).key = s.key := rfl
@[simp] theorem State.setPc_fault (w : Word) : (s.setPc w).fault = s.fault := rfl
@[simp] theorem State.setPc_draws (w : Word) : (s.setPc w).draws = s.draws := rfl

/-! ### `setDt` -/

@[simp] theorem State.setDt_v (b : Byte) : (s.setDt b).v = s.v := rfl
@[simp] theorem State.setDt_i (b : Byte) : (s.setDt b).i = s.i := rfl
@[simp] theorem State.setDt_pc (b : Byte) : (s.setDt b).pc = s.pc := rfl
@[simp] theorem State.setDt_stack (b : Byte) : (s.setDt b).stack = s.stack := rfl
@[simp] theorem State.setDt_sp (b : Byte) : (s.setDt b).sp = s.sp := rfl
@[simp] theorem State.setDt_dt (b : Byte) : (s.setDt b).dt = b := rfl
@[simp] theorem State.setDt_st (b : Byte) : (s.setDt b).st = s.st := rfl
@[simp] theorem State.setDt_mem (b : Byte) : (s.setDt b).mem = s.mem := rfl
@[simp] theorem State.setDt_pix (b : Byte) : (s.setDt b).pix = s.pix := rfl
@[simp] theorem State.setDt_key (b : Byte) : (s.setDt b).key = s.key := rfl
@[simp] theorem State.setDt_fault (b : Byte) : (s.setDt b).fault = s.fault := rfl
@[simp] theorem State.setDt_draws (b : Byte) : (s.setDt b).draws = s.draws := rfl

/-! ### `setSt` -/

@[simp] theorem State.setSt_v (b : Byte) : (s.setSt b).v = s.v := rfl
@[simp] theorem State.setSt_i (b : Byte) : (s.setSt b).i = s.i := rfl
@[simp] theorem State.setSt_pc (b : Byte) : (s.setSt b).pc = s.pc := rfl
@[simp] theorem State.setSt_stack (b : Byte) : (s.setSt b).stack = s.stack := rfl
@[simp] theorem State.setSt_sp (b : Byte) : (s.setSt b).sp = s.sp := rfl
@[simp] theorem State.setSt_dt (b : Byte) : (s.setSt b).dt = s.dt := rfl
@[simp] theorem State.setSt_st (b : Byte) : (s.setSt b).st = b := rfl
@[simp] theorem State.setSt_mem (b : Byte) : (s.setSt b).mem = s.mem := rfl
@[simp] theorem State.setSt_pix (b : Byte) : (s.setSt b).pix = s.pix := rfl
@[simp] theorem State.setSt_key (b : Byte) : (s.setSt b).key = s.key := rfl
@[simp] theorem State.setSt_fault (b : Byte) : (s.setSt b).fault = s.fault := rfl
@[simp] theorem State.setSt_draws (b : Byte) : (s.setSt b).draws = s.draws := rfl

/-! ### `setKey` -/

@[simp] theorem State.setKey_v (k : Option Key) : (s.setKey k).v = s.v := rfl
@[simp] theorem State.setKey_i (k : Option Key) : (s.setKey k).i = s.i := rfl
@[simp] theorem State.setKey_pc (k : Option Key) : (s.setKey k).pc = s.pc := rfl
@[simp] theorem State.setKey_stack (k : Option Key) : (s.setKey k).stack = s.stack := rfl
@[simp] theorem State.setKey_sp (k : Option Key) : (s.setKey k).sp = s.sp := rfl
@[simp] theorem State.setKey_dt (k : Option Key) : (s.setKey k).dt = s.dt := rfl
@[simp] theorem State.setKey_st (k : Option Key) : (s.setKey k).st = s.st := rfl
@[simp] theorem State.setKey_mem (k : Option Key) : (s.setKey k).mem = s.mem := rfl
@[simp] theorem State.setKey_pix (k : Option Key) : (s.setKey k).pix = s.pix := rfl
@[simp] theorem State.setKey_key (k : Option Key) : (s.setKey k).key = k := rfl
@[simp] theorem State.setKey_fault (k : Option Key) : (s.setKey k).fault = s.fault := rfl
@[simp] theorem State.setKey_draws (k : Option Key) : (s.setKey k).draws = s.draws := rfl

/-! ### `setPix` -/

@[simp] theorem State.setPix_v (p : Display) : (s.setPix p).v = s.v := rfl
@[simp] theorem State.setPix_i (p : Display) : (s.setPix p).i = s.i := rfl
@[simp] theorem State.setPix_pc (p : Display) : (s.setPix p).pc = s.pc := rfl
@[simp] theorem State.setPix_stack (p : Display) : (s.setPix p).stack = s.stack := rfl
@[simp] theorem State.setPix_sp (p : Display) : (s.setPix p).sp = s.sp := rfl
@[simp] theorem State.setPix_dt (p : Display) : (s.setPix p).dt = s.dt := rfl
@[simp] theorem State.setPix_st (p : Display) : (s.setPix p).st = s.st := rfl
@[simp] theorem State.setPix_mem (p : Display) : (s.setPix p).mem = s.mem := rfl
@[simp] theorem State.setPix_pix (p : Display) : (s.setPix p).pix = p := rfl
@[simp] theorem State.setPix_key (p : Display) : (s.setPix p).key = s.key := rfl
@[simp] theorem State.setPix_fault (p : Display) : (s.setPix p).fault = s.fault := rfl
@[simp] theorem State.setPix_draws (p : Display) : (s.setPix p).draws = s.draws := rfl

/-! ### `setMem` -/

@[simp] theorem State.setMem_v (m : Memory) : (s.setMem m).v = s.v := rfl
@[simp] theorem State.setMem_i (m : Memory) : (s.setMem m).i = s.i := rfl
@[simp] theorem State.setMem_pc (m : Memory) : (s.setMem m).pc = s.pc := rfl
@[simp] theorem State.setMem_stack (m : Memory) : (s.setMem m).stack = s.stack := rfl
@[simp] theorem State.setMem_sp (m : Memory) : (s.setMem m).sp = s.sp := rfl
@[simp] theorem State.setMem_dt (m : Memory) : (s.setMem m).dt = s.dt := rfl
@[simp] theorem State.setMem_st (m : Memory) : (s.setMem m).st = s.st := rfl
@[simp] theorem State.setMem_mem (m : Memory) : (s.setMem m).mem = m := rfl
@[simp] theorem State.setMem_pix (m : Memory) : (s.setMem m).pix = s.pix := rfl
@[simp] theorem State.setMem_key (m : Memory) : (s.setMem m).key = s.key := rfl
@[simp] theorem State.setMem_fault (m : Memory) : (s.setMem m).fault = s.fault := rfl
@[simp] theorem State.setMem_draws (m : Memory) : (s.setMem m).draws = s.draws := rfl

/-! ### `setStack` -/

@[simp] theorem State.setStack_v (k : Vector Word 16) (n : Fin 17) : (s.setStack k n).v = s.v := rfl
@[simp] theorem State.setStack_i (k : Vector Word 16) (n : Fin 17) : (s.setStack k n).i = s.i := rfl
@[simp] theorem State.setStack_pc (k : Vector Word 16) (n : Fin 17) : (s.setStack k n).pc = s.pc := rfl
@[simp] theorem State.setStack_stack (k : Vector Word 16) (n : Fin 17) : (s.setStack k n).stack = k := rfl
@[simp] theorem State.setStack_sp (k : Vector Word 16) (n : Fin 17) : (s.setStack k n).sp = n := rfl
@[simp] theorem State.setStack_dt (k : Vector Word 16) (n : Fin 17) : (s.setStack k n).dt = s.dt := rfl
@[simp] theorem State.setStack_st (k : Vector Word 16) (n : Fin 17) : (s.setStack k n).st = s.st := rfl
@[simp] theorem State.setStack_mem (k : Vector Word 16) (n : Fin 17) : (s.setStack k n).mem = s.mem := rfl
@[simp] theorem State.setStack_pix (k : Vector Word 16) (n : Fin 17) : (s.setStack k n).pix = s.pix := rfl
@[simp] theorem State.setStack_key (k : Vector Word 16) (n : Fin 17) : (s.setStack k n).key = s.key := rfl
@[simp] theorem State.setStack_fault (k : Vector Word 16) (n : Fin 17) : (s.setStack k n).fault = s.fault := rfl
@[simp] theorem State.setStack_draws (k : Vector Word 16) (n : Fin 17) : (s.setStack k n).draws = s.draws := rfl

/-! ### `setDraws` -/

@[simp] theorem State.setDraws_v (n : Nat) : (s.setDraws n).v = s.v := rfl
@[simp] theorem State.setDraws_i (n : Nat) : (s.setDraws n).i = s.i := rfl
@[simp] theorem State.setDraws_pc (n : Nat) : (s.setDraws n).pc = s.pc := rfl
@[simp] theorem State.setDraws_stack (n : Nat) : (s.setDraws n).stack = s.stack := rfl
@[simp] theorem State.setDraws_sp (n : Nat) : (s.setDraws n).sp = s.sp := rfl
@[simp] theorem State.setDraws_dt (n : Nat) : (s.setDraws n).dt = s.dt := rfl
@[simp] theorem State.setDraws_st (n : Nat) : (s.setDraws n).st = s.st := rfl
@[simp] theorem State.setDraws_mem (n : Nat) : (s.setDraws n).mem = s.mem := rfl
@[simp] theorem State.setDraws_pix (n : Nat) : (s.setDraws n).pix = s.pix := rfl
@[simp] theorem State.setDraws_key (n : Nat) : (s.setDraws n).key = s.key := rfl
@[simp] theorem State.setDraws_fault (n : Nat) : (s.setDraws n).fault = s.fault := rfl
@[simp] theorem State.setDraws_draws (n : Nat) : (s.setDraws n).draws = n := rfl

/-! ### `faulted` -/

@[simp] theorem State.faulted_v (e : Fault) : (State.faulted e s).v = s.v := rfl
@[simp] theorem State.faulted_i (e : Fault) : (State.faulted e s).i = s.i := rfl
@[simp] theorem State.faulted_pc (e : Fault) : (State.faulted e s).pc = s.pc := rfl
@[simp] theorem State.faulted_stack (e : Fault) : (State.faulted e s).stack = s.stack := rfl
@[simp] theorem State.faulted_sp (e : Fault) : (State.faulted e s).sp = s.sp := rfl
@[simp] theorem State.faulted_dt (e : Fault) : (State.faulted e s).dt = s.dt := rfl
@[simp] theorem State.faulted_st (e : Fault) : (State.faulted e s).st = s.st := rfl
@[simp] theorem State.faulted_mem (e : Fault) : (State.faulted e s).mem = Memory.canonical s.mem := rfl
@[simp] theorem State.faulted_pix (e : Fault) : (State.faulted e s).pix = s.pix := rfl
@[simp] theorem State.faulted_key (e : Fault) : (State.faulted e s).key = s.key := rfl
@[simp] theorem State.faulted_fault (e : Fault) : (State.faulted e s).fault = some e := rfl
@[simp] theorem State.faulted_draws (e : Fault) : (State.faulted e s).draws = s.draws := rfl

/-! ### `tickTimers`, `retire`, `retireJump`, `skipIf` -/

@[simp] theorem tickTimers_v : (tickTimers s).v = s.v := rfl
@[simp] theorem tickTimers_i : (tickTimers s).i = s.i := rfl
@[simp] theorem tickTimers_pc : (tickTimers s).pc = s.pc := rfl
@[simp] theorem tickTimers_stack : (tickTimers s).stack = s.stack := rfl
@[simp] theorem tickTimers_sp : (tickTimers s).sp = s.sp := rfl
@[simp] theorem tickTimers_dt : (tickTimers s).dt = countDown s.dt := rfl
@[simp] theorem tickTimers_st : (tickTimers s).st = countDown s.st := rfl
@[simp] theorem tickTimers_mem : (tickTimers s).mem = s.mem := rfl
@[simp] theorem tickTimers_pix : (tickTimers s).pix = s.pix := rfl
@[simp] theorem tickTimers_key : (tickTimers s).key = s.key := rfl
@[simp] theorem tickTimers_fault : (tickTimers s).fault = s.fault := rfl
@[simp] theorem tickTimers_draws : (tickTimers s).draws = s.draws := rfl

@[simp] theorem retire_v : (retire s).v = s.v := rfl
@[simp] theorem retire_i : (retire s).i = s.i := rfl
@[simp] theorem retire_pc : (retire s).pc = s.pc + 2 := rfl
@[simp] theorem retire_stack : (retire s).stack = s.stack := rfl
@[simp] theorem retire_sp : (retire s).sp = s.sp := rfl
@[simp] theorem retire_dt : (retire s).dt = countDown s.dt := rfl
@[simp] theorem retire_st : (retire s).st = countDown s.st := rfl
@[simp] theorem retire_mem : (retire s).mem = s.mem := rfl
@[simp] theorem retire_pix : (retire s).pix = s.pix := rfl
@[simp] theorem retire_key : (retire s).key = s.key := rfl
@[simp] theorem retire_fault : (retire s).fault = s.fault := rfl
@[simp] theorem retire_draws : (retire s).draws = s.draws := rfl

@[simp] theorem retireJump_eq : retireJump s = s := rfl

@[simp] theorem skipIf_v (c : Bool) : (skipIf c s).v = s.v := by cases c <;> rfl
@[simp] theorem skipIf_i (c : Bool) : (skipIf c s).i = s.i := by cases c <;> rfl
@[simp] theorem skipIf_pc (c : Bool) : (skipIf c s).pc = if c then s.pc + 2 else s.pc := by cases c <;> rfl
@[simp] theorem skipIf_stack (c : Bool) : (skipIf c s).stack = s.stack := by cases c <;> rfl
@[simp] theorem skipIf_sp (c : Bool) : (skipIf c s).sp = s.sp := by cases c <;> rfl
@[simp] theorem skipIf_dt (c : Bool) : (skipIf c s).dt = s.dt := by cases c <;> rfl
@[simp] theorem skipIf_st (c : Bool) : (skipIf c s).st = s.st := by cases c <;> rfl
@[simp] theorem skipIf_mem (c : Bool) : (skipIf c s).mem = s.mem := by cases c <;> rfl
@[simp] theorem skipIf_pix (c : Bool) : (skipIf c s).pix = s.pix := by cases c <;> rfl
@[simp] theorem skipIf_key (c : Bool) : (skipIf c s).key = s.key := by cases c <;> rfl
@[simp] theorem skipIf_fault (c : Bool) : (skipIf c s).fault = s.fault := by cases c <;> rfl
@[simp] theorem skipIf_draws (c : Bool) : (skipIf c s).draws = s.draws := by cases c <;> rfl

/-! ### Reading a register after an update -/

theorem State.getV_setV (r q : Reg) (b : Byte) : (s.setV r b).getV q = if q = r then b else s.getV q := by
  unfold State.getV State.setV
  by_cases h : q = r
  · subst h; simp
  · have : r.val ≠ q.val := fun e => h (Fin.ext e.symm)
    simp [h, Vector.getElem_set_ne, this]

@[simp] theorem State.getV_setV_self (r : Reg) (b : Byte) : (s.setV r b).getV r = b := by
  simp [State.getV_setV]

theorem State.getV_setV_ne {r q : Reg} (h : q ≠ r) (b : Byte) : (s.setV r b).getV q = s.getV q := by
  simp [State.getV_setV, h]

theorem State.getV_setVF (q : Reg) (b : Byte) : (s.setVF b).getV q = if q = 15 then b else s.getV q :=
  State.getV_setV s 15 q b

/-- A register read looks at the register file alone. -/
theorem State.getV_congr {s t : State} (h : t.v = s.v) (r : Reg) : t.getV r = s.getV r := by
  unfold State.getV; rw [h]

@[simp] theorem State.getV_setI (w : Word) (q : Reg) : (s.setI w).getV q = s.getV q := rfl
@[simp] theorem State.getV_setPc (w : Word) (q : Reg) : (s.setPc w).getV q = s.getV q := rfl
@[simp] theorem State.getV_setDt (b : Byte) (q : Reg) : (s.setDt b).getV q = s.getV q := rfl
@[simp] theorem State.getV_setSt (b : Byte) (q : Reg) : (s.setSt b).getV q = s.getV q := rfl
@[simp] theorem State.getV_setKey (k : Option Key) (q : Reg) : (s.setKey k).getV q = s.getV q := rfl
@[simp] theorem State.getV_setPix (p : Display) (q : Reg) : (s.setPix p).getV q = s.getV q := rfl
@[simp] theorem State.getV_setMem (m : Memory) (q : Reg) : (s.setMem m).getV q = s.getV q := rfl
@[simp] theorem State.getV_setStack (k : Vector Word 16) (n : Fin 17) (q : Reg) : (s.setStack k n).getV q = s.getV q := rfl
@[simp] theorem State.getV_setDraws (n : Nat) (q : Reg) : (s.setDraws n).getV q = s.getV q := rfl
@[simp] theorem getV_tickTimers (q : Reg) : (tickTimers s).getV q = s.getV q := rfl
@[simp] theorem getV_retire (q : Reg) : (retire s).getV q = s.getV q := rfl
@[simp] theorem getV_skipIf (c : Bool) (q : Reg) : (skipIf c s).getV q = s.getV q := by cases c <;> rfl

/-! ### Reset -/

@[simp] theorem State.reset_v : State.reset.v = Vector.replicate 16 0 := rfl
@[simp] theorem State.reset_i : State.reset.i = 0 := rfl
@[simp] theorem State.reset_pc : State.reset.pc = 0x200 := rfl
@[simp] theorem State.reset_stack : State.reset.stack = Vector.replicate 16 0 := rfl
@[simp] theorem State.reset_sp : State.reset.sp = 0 := rfl
@[simp] theorem State.reset_dt : State.reset.dt = 0 := rfl
@[simp] theorem State.reset_st : State.reset.st = 0 := rfl
@[simp] theorem State.reset_mem : State.reset.mem = [] := rfl
@[simp] theorem State.reset_pix : State.reset.pix = clearedDisplay := rfl
@[simp] theorem State.reset_key : State.reset.key = none := rfl
@[simp] theorem State.reset_fault : State.reset.fault = none := rfl

end Sys2Proof.Machine
end

