-- ==== Sys2Proof/Laws/Memory.lean ====
section
/-! SUPPORT. Memory as data: read after write, the canonical form is kept by every operation, and what the memory
interface can answer (spec/20_memory.md R88, R89, R95, R96). -/

namespace Sys2Proof.Machine

@[simp] theorem Memory.read_cons (a b : Nat) (v : Byte) (m : Memory) (hm : a = b → Memory.read m b = memDefault b) :
    Memory.read (Memory.cons a v m) b = if b = a then v else Memory.read m b := by
  unfold Memory.cons
  split
  · rename_i hv
    by_cases h : b = a
    · subst h; simp [hv, hm rfl]
    · simp [h]
  · rfl

/-- Below its first address a canonical memory lists nothing. -/
theorem Memory.read_of_lt {lo : Nat} {m : Memory} (h : Memory.wfFrom lo m = true) {a : Nat} (ha : a < lo) :
    Memory.read m a = memDefault a := by
  induction m generalizing lo with
  | nil => rfl
  | cons c m ih =>
    obtain ⟨b, w⟩ := c
    simp only [Memory.wfFrom, Bool.and_eq_true, decide_eq_true_eq] at h
    have : a ≠ b := by omega
    simp [Memory.read, this, ih h.2 (by omega)]

/-- Read after write: the byte written there, and every other address as before. -/
theorem Memory.read_write {lo : Nat} {m : Memory} (h : Memory.wfFrom lo m = true) (a b : Nat) (v : Byte) :
    Memory.read (Memory.write m a v) b = if b = a then v else Memory.read m b := by
  induction m generalizing lo with
  | nil => exact Memory.read_cons a b v [] (fun _ => rfl)
  | cons c m ih =>
    obtain ⟨k, w⟩ := c
    have hw := h
    simp only [Memory.wfFrom, Bool.and_eq_true, decide_eq_true_eq] at h
    have below : ∀ x, x < k + 1 → Memory.read m x = memDefault x := fun x hx => Memory.read_of_lt h.2 hx
    unfold Memory.write
    split
    · apply Memory.read_cons
      intro e
      have : b ≠ k := by omega
      simp [Memory.read, this, below b (by omega)]
    · split
      · rename_i e
        subst e
        rw [Memory.read_cons a b v m (fun e => below b (by omega))]
        by_cases hb : b = a <;> simp [hb, Memory.read]
      · by_cases hb : b = k
        · have : b ≠ a := by omega
          simp [Memory.read, hb]; omega
        · simp [Memory.read, hb, ih h.2]

theorem Memory.wfFrom_mono {lo lo' : Nat} {m : Memory} (hle : lo' ≤ lo) (h : Memory.wfFrom lo m = true) :
    Memory.wfFrom lo' m = true := by
  cases m with
  | nil => rfl
  | cons c m =>
    simp only [Memory.wfFrom, Bool.and_eq_true, decide_eq_true_eq] at h ⊢
    exact ⟨⟨⟨by omega, h.1.1.2⟩, h.1.2⟩, h.2⟩

theorem Memory.wfFrom_cons {lo a : Nat} {v : Byte} {m : Memory} (hlo : lo ≤ a) (ha : a < 4096)
    (h : Memory.wfFrom (a + 1) m = true) : Memory.wfFrom lo (Memory.cons a v m) = true := by
  unfold Memory.cons
  split
  · exact Memory.wfFrom_mono (by omega) h
  · rename_i hv
    simp [Memory.wfFrom, hlo, ha, hv, h]

theorem Memory.wfFrom_write {lo a : Nat} {m : Memory} (h : Memory.wfFrom lo m = true) (hlo : lo ≤ a) (ha : a < 4096)
    (v : Byte) : Memory.wfFrom lo (Memory.write m a v) = true := by
  induction m generalizing lo with
  | nil => exact Memory.wfFrom_cons hlo ha rfl
  | cons c m ih =>
    obtain ⟨k, w⟩ := c
    have hw := h
    simp only [Memory.wfFrom, Bool.and_eq_true, decide_eq_true_eq] at h
    unfold Memory.write
    split
    · apply Memory.wfFrom_cons hlo ha
      simp only [Memory.wfFrom, Bool.and_eq_true, decide_eq_true_eq]
      exact ⟨⟨⟨by omega, h.1.1.2⟩, h.1.2⟩, h.2⟩
    · split
      · rename_i e
        subst e
        exact Memory.wfFrom_cons hlo ha h.2
      · simp only [Memory.wfFrom, Bool.and_eq_true, decide_eq_true_eq]
        exact ⟨h.1, ih h.2 (by omega)⟩

/-- Storing a byte below 4096 keeps the canonical form. -/
theorem Memory.wf_write {m : Memory} (h : Memory.wf m = true) {a : Nat} (ha : a < 4096) (v : Byte) :
    Memory.wf (Memory.write m a v) = true := Memory.wfFrom_write h (Nat.zero_le _) ha v

/-- Placing bytes keeps the canonical form. -/
theorem Memory.wf_placeBytes {m : Memory} (h : Memory.wf m = true) (a : Nat) (bs : List Byte) :
    Memory.wf (placeBytes m a bs) = true := by
  induction bs generalizing m a with
  | nil => exact h
  | cons b bs ih =>
    unfold placeBytes
    by_cases ha : a < 4096
    · simp only [Config.memSize, ha, if_true]; exact ih (Memory.wf_write h ha b) _
    · simp only [Config.memSize, ha, if_false]; exact ih h _

/-- What placing bytes leaves at each address: the byte placed there, or what was there. -/
theorem Memory.read_placeBytes {m : Memory} (h : Memory.wf m = true) (a : Nat) (bs : List Byte)
    (hfit : a + bs.length ≤ 4096) (b : Nat) :
    Memory.read (placeBytes m a bs) b = if a ≤ b then bs.getD (b - a) (Memory.read m b) else Memory.read m b := by
  induction bs generalizing m a with
  | nil => simp [placeBytes]
  | cons c bs ih =>
    have hl : (c :: bs).length = bs.length + 1 := rfl
    have ha : a < 4096 := by omega
    unfold placeBytes
    simp only [Config.memSize, ha, if_true]
    rw [ih (Memory.wf_write h ha c) (a + 1) (by omega), Memory.read_write (lo := 0) h]
    by_cases h1 : b = a
    · subst h1; simp
    · by_cases h2 : a ≤ b
      · have e : b - a = (b - (a + 1)) + 1 := by omega
        have h3 : a + 1 ≤ b := by omega
        simp [h1, h2, h3, e]
      · have h3 : ¬ a + 1 ≤ b := by omega
        simp [h1, h2, h3]

/-! ### The canonical memory of a list of cells -/

/-- Whatever the list of cells, the result is canonical. -/
theorem Memory.wf_canonical (m : Memory) : Memory.wf (Memory.canonical m) = true := by
  induction m with
  | nil => rfl
  | cons c m ih =>
    unfold Memory.canonical
    split
    · rename_i h; exact Memory.wf_write ih h _
    · exact ih

/-- It holds the bytes the list holds at every address that exists. -/
theorem Memory.read_canonical (m : Memory) {a : Nat} (ha : a < 4096) :
    Memory.read (Memory.canonical m) a = Memory.read m a := by
  induction m with
  | nil => rfl
  | cons c m ih =>
    obtain ⟨b, w⟩ := c
    unfold Memory.canonical
    split
    · rw [Memory.read_write (lo := 0) (Memory.wf_canonical m), ih]; rfl
    · rename_i hb
      have : a ≠ b := by rintro rfl; exact hb ha
      simp [Memory.read, this, ih]

/-- Writing a byte that is not the default in front of a canonical memory lists it first. -/
theorem Memory.write_front {a : Nat} {v : Byte} {m : Memory} (hm : Memory.wfFrom (a + 1) m = true)
    (hv : v ≠ memDefault a) : Memory.write m a v = (a, v) :: m := by
  cases m with
  | nil => simp [Memory.write, Memory.cons, hv]
  | cons c m =>
    simp only [Memory.wfFrom, Bool.and_eq_true, decide_eq_true_eq] at hm
    have : a < c.1 := by omega
    simp [Memory.write, Memory.cons, hv, this]

theorem Memory.canonical_of_wfFrom {lo : Nat} {m : Memory} (h : Memory.wfFrom lo m = true) : Memory.canonical m = m := by
  induction m generalizing lo with
  | nil => rfl
  | cons c m ih =>
    simp only [Memory.wfFrom, Bool.and_eq_true, decide_eq_true_eq] at h
    simp only [Memory.canonical, h.1.1.2, if_true, ih h.2]
    exact Memory.write_front h.2 h.1.2

/-- A canonical memory is its own canonical memory, so `State.faulted` reaches every one. -/
theorem Memory.canonical_of_wf {m : Memory} (h : Memory.wf m = true) : Memory.canonical m = m :=
  Memory.canonical_of_wfFrom h

/-- The memory a fault leaves is canonical. -/
theorem State.wf_faulted (f : Fault) (u : State) : Memory.wf (State.faulted f u).mem = true := Memory.wf_canonical u.mem

/-- Where the unspecified state's memory is canonical, a fault leaves that state with FAULT set. -/
theorem State.faulted_of_wf {u : State} (h : Memory.wf u.mem = true) (f : Fault) :
    State.faulted f u = { u with fault := some f } := by
  simp only [State.faulted, Memory.canonical_of_wf h]

/-! ### The interface -/

theorem memRead_of_lt (s : State) {a : Nat} (h : a < 4096) : memRead s a = .ok (Memory.read s.mem a) := by
  simp [memRead, h]

theorem memRead_of_ge (s : State) {a : Nat} (h : 4096 ≤ a) : memRead s a = .error (.memoryOutOfRange a) := by
  simp [memRead, Nat.not_lt.mpr h]

theorem memWrite_of_lt (s : State) {a : Nat} (h : a < 4096) (v : Byte) :
    memWrite s a v = .ok (s.setMem (Memory.write s.mem a v)) := by
  simp [memWrite, h]

theorem memWrite_of_ge (s : State) {a : Nat} (h : 4096 ≤ a) (v : Byte) :
    memWrite s a v = .error (.memoryOutOfRange a) := by
  simp [memWrite, Nat.not_lt.mpr h]

/-- Reading a run of bytes that fits answers exactly those bytes. -/
theorem readBytes_fits (s : State) (a k : Nat) (h : a + k ≤ 4096) :
    readBytes s a k = .ok ((List.range' a k).map (Memory.read s.mem)) := by
  induction k generalizing a with
  | zero => rfl
  | succ k ih =>
    unfold readBytes
    rw [memRead_of_lt s (by omega), ih (a + 1) (by omega)]
    rfl

/-- Reading a run of bytes that does not fit reports the first address of 4096 or more. -/
theorem readBytes_overruns (s : State) (a k : Nat) (hk : 0 < k) (h : 4096 < a + k) :
    readBytes s a k = .error (.memoryOutOfRange (max a 4096)) := by
  induction k generalizing a with
  | zero => omega
  | succ k ih =>
    unfold readBytes
    by_cases ha : a < 4096
    · rw [memRead_of_lt s ha, ih (a + 1) (by omega) (by omega)]
      simp [Nat.max_eq_right (show a ≤ 4096 by omega), Nat.max_eq_right (show a + 1 ≤ 4096 by omega)]
    · rw [memRead_of_ge s (by omega)]
      simp [Nat.max_eq_left (show 4096 ≤ a by omega)]

/-- Writing a run of bytes that fits changes memory alone, to the bytes placed there. -/
theorem writeBytes_fits (s : State) (a : Nat) (bs : List Byte) (h : a + bs.length ≤ 4096) :
    writeBytes s a bs = .ok (s.setMem (placeBytes s.mem a bs)) := by
  induction bs generalizing s a with
  | nil => rfl
  | cons b bs ih =>
    have hl : (b :: bs).length = bs.length + 1 := rfl
    have ha : a < 4096 := by omega
    unfold writeBytes
    rw [memWrite_of_lt s ha]
    simp only
    rw [ih _ (a + 1) (by omega)]
    simp [placeBytes, State.setMem, ha]

/-- Writing a run of bytes that does not fit reports the first address of 4096 or more. -/
theorem writeBytes_overruns (s : State) (a : Nat) (bs : List Byte) (hk : 0 < bs.length) (h : 4096 < a + bs.length) :
    writeBytes s a bs = .error (.memoryOutOfRange (max a 4096)) := by
  induction bs generalizing s a with
  | nil => simp at hk
  | cons b bs ih =>
    have hl : (b :: bs).length = bs.length + 1 := rfl
    unfold writeBytes
    by_cases ha : a < 4096
    · rw [memWrite_of_lt s ha]
      simp only
      rw [ih _ (a + 1) (by omega) (by omega)]
      simp [Nat.max_eq_right (show a ≤ 4096 by omega), Nat.max_eq_right (show a + 1 ≤ 4096 by omega)]
    · rw [memWrite_of_ge s (by omega)]
      simp [Nat.max_eq_left (show 4096 ≤ a by omega)]

/-- All a run of byte writes can do when it does not fault: memory becomes the bytes placed there, nothing else. -/
theorem writeBytes_ok {s t : State} {a : Nat} {bs : List Byte} (h : writeBytes s a bs = .ok t) :
    t = s.setMem (placeBytes s.mem a bs) := by
  by_cases hf : a + bs.length ≤ 4096
  · rw [writeBytes_fits s a bs hf] at h; exact (Except.ok.inj h).symm
  · by_cases hk : 0 < bs.length
    · rw [writeBytes_overruns s a bs hk (by omega)] at h; cases h
    · have : bs = [] := List.length_eq_zero_iff.mp (by omega)
      subst this
      exact (Except.ok.inj h).symm

/-- A byte store that does not fault keeps the canonical form. -/
theorem memWrite_wf {s t : State} {a : Nat} {v : Byte} (h : memWrite s a v = .ok t) (hw : Memory.wf s.mem = true) :
    Memory.wf t.mem = true := by
  by_cases ha : a < 4096
  · rw [memWrite_of_lt s ha] at h
    obtain rfl := Except.ok.inj h
    exact Memory.wf_write hw ha v
  · rw [memWrite_of_ge s (by omega)] at h; cases h

/-- A run of byte stores that does not fault keeps the canonical form. -/
theorem writeBytes_wf {s t : State} {a : Nat} {bs : List Byte} (h : writeBytes s a bs = .ok t)
    (hw : Memory.wf s.mem = true) : Memory.wf t.mem = true := by
  rw [writeBytes_ok h]
  exact Memory.wf_placeBytes hw a bs

/-- The memory after reset lists nothing, which is canonical. -/
theorem reset_mem_wf : Memory.wf State.reset.mem = true := rfl

/-- All a run of byte reads can answer when it does not fault. -/
theorem readBytes_ok {s : State} {a k : Nat} {bs : List Byte} (h : readBytes s a k = .ok bs) :
    bs = (List.range' a k).map (Memory.read s.mem) ∧ (0 < k → a + k ≤ 4096) := by
  by_cases hf : a + k ≤ 4096
  · rw [readBytes_fits s a k hf] at h
    exact ⟨(Except.ok.inj h).symm, fun _ => hf⟩
  · by_cases hk : 0 < k
    · rw [readBytes_overruns s a k hk (by omega)] at h; cases h
    · have : k = 0 := by omega
      subst this
      exact ⟨(Except.ok.inj h).symm, fun h => absurd h (by omega)⟩

end Sys2Proof.Machine
end

