-- ==== Sys2Proof/Laws/Machine.lean ====
section
/-! SUPPORT. What each shared operation can do: register runs, the call stack, the timers, fetching and the answer of an
instruction whose effects may fault. -/

namespace Sys2Proof.Machine

/-! ### Register runs -/

/-- A run of register writes leaves each register the byte written to it, or what it held. -/
theorem State.getV_setVs (s : State) (k : Nat) (bs : List Byte) (r : Reg) :
    (s.setVs k bs).getV r = if k ≤ r.val then bs.getD (r.val - k) (s.getV r) else s.getV r := by
  induction bs generalizing s k with
  | nil => simp [State.setVs]
  | cons b bs ih =>
    unfold State.setVs
    split
    · rename_i hk
      rw [ih, State.getV_setV]
      by_cases h1 : r = ⟨k, hk⟩
      · subst h1; simp
      · have h1' : r.val ≠ k := fun e => h1 (Fin.ext e)
        by_cases h2 : k ≤ r.val
        · have e : r.val - k = (r.val - (k + 1)) + 1 := by omega
          have h3 : k + 1 ≤ r.val := by omega
          simp [h1, h2, h3, e]
        · have h3 : ¬ k + 1 ≤ r.val := by omega
          simp [h1, h2, h3]
    · have h2 : ¬ k ≤ r.val := by have := r.isLt; omega
      simp [h2]

/-- A run of register writes changes the register file alone. -/
theorem State.setVs_eq (s : State) (k : Nat) (bs : List Byte) : s.setVs k bs = { s with v := (s.setVs k bs).v } := by
  induction bs generalizing s k with
  | nil => rfl
  | cons b bs ih =>
    unfold State.setVs
    split
    · rw [ih]; rfl
    · rfl

/-- What Fx55 stores: register r at place r, for r up to x. -/
theorem regsUpTo_getD (s : State) (x : Reg) (k : Nat) (d : Byte) :
    (regsUpTo s x).getD k d = if h : k ≤ x.val then s.getV ⟨k, by have := x.isLt; omega⟩ else d := by
  have hl : s.v.toList.length = 16 := by simp
  have hx := x.isLt
  unfold regsUpTo State.getV
  split
  · rename_i h
    simp [List.getD_eq_getElem?_getD, show k < x.val + 1 by omega]
  · rename_i h
    simp [List.getD_eq_getElem?_getD, show ¬ k < x.val + 1 by omega]

theorem regsUpTo_length (s : State) (x : Reg) : (regsUpTo s x).length = x.val + 1 := by
  simp [regsUpTo]

@[simp] theorem decimalDigits_length (b : Byte) : (decimalDigits b).length = 3 := rfl

/-! ### The call stack (R50) -/

theorem pushStack_full (s : State) (w : Word) (h : s.sp.val = 16) : pushStack s w = .error (.stackOverflow s.pc) := by
  simp [pushStack, h]

theorem pushStack_of_lt (s : State) (w : Word) (h : s.sp.val < 16) :
    pushStack s w = .ok (s.setStack (s.stack.set s.sp.val w) ⟨s.sp.val + 1, Nat.succ_lt_succ h⟩) := dif_pos h

/-- All a push can do when it does not fault: the word in the next entry, SP one more, nothing else. -/
theorem pushStack_ok {s t : State} {w : Word} (h : pushStack s w = .ok t) :
    ∃ (hlt : s.sp.val < 16), t = s.setStack (s.stack.set s.sp.val w hlt) ⟨s.sp.val + 1, Nat.succ_lt_succ hlt⟩ := by
  unfold pushStack at h
  split at h
  · rename_i hlt
    exact ⟨hlt, (Except.ok.inj h).symm⟩
  · cases h

theorem popStack_empty (s : State) (h : s.sp.val = 0) : popStack s = .error (.stackUnderflow s.pc) := by
  simp [popStack, h]

theorem popStack_of_succ (s : State) {k : Nat} (hlt : k < 16) (h : s.sp.val = k + 1) :
    popStack s = .ok (s.stack[k], s.setStack s.stack ⟨k, by omega⟩) := by
  unfold popStack
  rw [dif_neg (by omega)]
  simp [h]

/-- All a pop can do when it does not fault: the last entry, SP one less, the entries as they were. -/
theorem popStack_ok {s : State} {r : Word × State} (h : popStack s = .ok r) :
    ∃ (k : Nat) (hk : s.sp.val = k + 1) (hlt : k < 16), r = (s.stack[k], s.setStack s.stack ⟨k, by omega⟩) := by
  unfold popStack at h
  split at h
  · cases h
  · rename_i hne
    obtain ⟨k, hk⟩ : ∃ k, s.sp.val = k + 1 := ⟨s.sp.val - 1, by omega⟩
    have := s.sp.isLt
    refine ⟨k, hk, by omega, ?_⟩
    have e := (Except.ok.inj h).symm
    simpa [hk] using e

/-! ### The timers (R147) -/

theorem countDown_toNat (b : Byte) : (countDown b).toNat = b.toNat - 1 := by
  unfold countDown
  split
  · bv_omega
  · omega

/-! ### FETCH (R90) -/

/-- A fetch succeeds exactly with both bytes below 4096, and changes nothing. -/
theorem fetch_of_lt (s : State) (h : s.pc.toNat < 4095) :
    fetch s = .ok (wordOfBytes (Memory.read s.mem s.pc.toNat) (Memory.read s.mem (s.pc.toNat + 1))) := by
  unfold fetch
  rw [memRead_of_lt s (by omega), memRead_of_lt s (by omega)]

theorem fetch_ok_pc {s : State} {w : Word} (h : fetch s = .ok w) : s.pc.toNat < 4095 := by
  unfold fetch at h
  by_cases h1 : s.pc.toNat < 4096
  · by_cases h2 : s.pc.toNat + 1 < 4096
    · omega
    · rw [memRead_of_lt s h1, memRead_of_ge s (by omega)] at h; cases h
  · rw [memRead_of_ge s (by omega)] at h; cases h

/-- All a step that answers a next state can be: the execution of the instruction decoded at the PC, with no fault set. -/
theorem step_next {s t : State} (h : step s = .next t) :
    ∃ w i, s.fault = none ∧ s.pc.toNat < 4095 ∧ fetch s = .ok w ∧ decodeWord w = .ok i ∧ exec i s = .next t := by
  unfold step at h
  split at h
  · cases h
  · rename_i hf
    split at h
    · cases h
    · rename_i w hw
      split at h
      · cases h
      · rename_i i hi
        exact ⟨w, i, hf, fetch_ok_pc hw, hw, hi, h⟩

/-! ### Answers -/

@[simp] theorem answerOf_ok (s : State) : answerOf (.ok s) = .next s := rfl

@[simp] theorem answerOf_error (f : Fault) : answerOf (.error f) = .fault f := rfl

/-- A next state out of effects that may fault is the state they lead to. -/
theorem answerOf_map_next {α : Type} {e : Except Fault α} {f : α → State} {t : State}
    (h : answerOf (e.map f) = .next t) : ∃ a, e = .ok a ∧ t = f a := by
  cases e with
  | error x => cases h
  | ok a => exact ⟨a, rfl, by cases h; rfl⟩

theorem answerOf_map_ne_refused {α : Type} (e : Except Fault α) (f : α → State) (r : Refusal) :
    answerOf (e.map f) ≠ .refused r := by
  cases e <;> (intro h; cases h)

end Sys2Proof.Machine
end

