-- ==== Sys2Proof/Laws/Display.lean ====
section
/-! SUPPORT. The display: clearing, toggling one pixel, and what the sprite compositor leaves
(spec/43_display.md R271-R275, R281). -/

namespace Sys2Proof.Machine

@[simp] theorem clearedDisplay_pixel (x y : Nat) : Display.pixel clearedDisplay x y = false := by
  unfold Display.pixel clearedDisplay
  split <;> simp

theorem toggle_of_in (p : Display) {x y : Nat} (h : x < 64 ∧ y < 32) : ∃ q, Display.toggle p x y = .ok q := by
  unfold Display.toggle
  simp [h]

theorem toggle_of_out (p : Display) {x y : Nat} (h : ¬(x < 64 ∧ y < 32)) :
    Display.toggle p x y = .error (.displayOutOfRange x y) := by
  unfold Display.toggle
  rw [dif_neg h]

/-- All a toggle can do when it does not fault: that pixel flips, no other changes. -/
theorem toggle_ok {p q : Display} {x y : Nat} (h : Display.toggle p x y = .ok q) :
    (x < 64 ∧ y < 32) ∧
      ∀ a b, Display.pixel q a b = if a = x ∧ b = y then !(Display.pixel p x y) else Display.pixel p a b := by
  unfold Display.toggle at h
  split at h
  · rename_i hin
    refine ⟨hin, ?_⟩
    obtain rfl := (Except.ok.inj h).symm
    intro a b
    unfold Display.pixel
    by_cases hab : a < 64 ∧ b < 32
    · rw [dif_pos hab, dif_pos hab, dif_pos hin]
      by_cases ha : a = x
      · subst ha
        by_cases hb : b = y
        · subst hb; simp
        · simp [hb, Vector.getElem_set_ne, Ne.symm hb]
      · simp [ha, Vector.getElem_set_ne, Ne.symm ha]
    · rw [dif_neg hab, dif_neg hab]
      have : ¬(a = x ∧ b = y) := by rintro ⟨rfl, rfl⟩; exact hab hin
      simp [this]
  · cases h

/-- All drawing some bits of a row can do when it does not fault. -/
theorem drawBits_ok {byte : Byte} {x y : Nat} {bs : List Nat} (hn : bs.Nodup) {p q : Display} {c d : Bool}
    (h : drawBits byte x y bs (p, c) = .ok (q, d)) :
    (∀ j ∈ bs, spriteBit byte j = true → x + j < 64 ∧ y < 32) ∧
    (∀ a b, Display.pixel q a b =
      (Display.pixel p a b ^^ decide (b = y ∧ ∃ j ∈ bs, a = x + j ∧ spriteBit byte j = true))) ∧
    (d = true ↔ c = true ∨ ∃ j ∈ bs, spriteBit byte j = true ∧ Display.pixel p (x + j) y = true) := by
  induction bs generalizing p c with
  | nil =>
    obtain ⟨rfl, rfl⟩ := Prod.mk.inj (Except.ok.inj h)
    simp
  | cons j bs ih =>
    obtain ⟨hj, hn⟩ := List.nodup_cons.mp hn
    unfold drawBits at h
    split at h
    · rename_i hbit
      split at h
      · cases h
      · rename_i p' ht
        obtain ⟨hin, hpix⟩ := toggle_ok ht
        obtain ⟨h1, h2, h3⟩ := ih hn h
        refine ⟨?_, ?_, ?_⟩
        · intro k hk hb
          rcases List.mem_cons.mp hk with rfl | hk
          · exact hin
          · exact h1 k hk hb
        · intro a b
          rw [h2, hpix]
          by_cases hb : b = y
          · subst hb
            by_cases ha : a = x + j
            · subst ha
              have none : ¬ ∃ k ∈ bs, x + j = x + k ∧ spriteBit byte k = true := by
                rintro ⟨k, hk, e, -⟩
                exact hj (by rwa [show j = k by omega])
              have some : ∃ k ∈ j :: bs, x + j = x + k ∧ spriteBit byte k = true := ⟨j, by simp, rfl, hbit⟩
              rw [if_pos ⟨rfl, rfl⟩, decide_eq_false (by simpa using none), decide_eq_true (by exact ⟨rfl, some⟩)]
              simp
            · simp [ha]
          · simp [hb]
        · rw [h3]
          have other : ∀ k ∈ bs, Display.pixel p' (x + k) y = Display.pixel p (x + k) y := by
            intro k hk
            rw [hpix, if_neg]
            rintro ⟨e, -⟩
            exact hj (by rwa [show j = k by omega])
          simp only [List.mem_cons, Bool.or_eq_true, exists_eq_or_imp, hbit, true_and]
          constructor
          · rintro ((h | h) | ⟨k, hk, hb, hp⟩)
            · exact .inl h
            · exact .inr (.inl h)
            · exact .inr (.inr ⟨k, hk, hb, by rwa [other k hk] at hp⟩)
          · rintro (h | h | ⟨k, hk, hb, hp⟩)
            · exact .inl (.inl h)
            · exact .inl (.inr h)
            · exact .inr ⟨k, hk, hb, by rwa [other k hk]⟩
    · rename_i hbit
      obtain ⟨h1, h2, h3⟩ := ih hn h
      refine ⟨?_, ?_, ?_⟩
      · intro k hk hb
        rcases List.mem_cons.mp hk with rfl | hk
        · exact absurd hb hbit
        · exact h1 k hk hb
      · intro a b
        rw [h2]
        simp [hbit]
      · rw [h3]
        simp [hbit]

/-- Drawing some bits whose 1 bits are in the grid never faults. -/
theorem drawBits_fits {byte : Byte} {x y : Nat} {bs : List Nat}
    (h : ∀ j ∈ bs, spriteBit byte j = true → x + j < 64 ∧ y < 32) (pc : Display × Bool) :
    ∃ r, drawBits byte x y bs pc = .ok r := by
  induction bs generalizing pc with
  | nil => exact ⟨pc, rfl⟩
  | cons j bs ih =>
    obtain ⟨p, c⟩ := pc
    have tail := ih fun k hk => h k (List.mem_cons_of_mem _ hk)
    unfold drawBits
    split
    · rename_i hb
      obtain ⟨q, hq⟩ := toggle_of_in p (h j List.mem_cons_self hb)
      rw [hq]
      exact tail _
    · exact tail _

theorem mem_bitIndices {j : Nat} : j ∈ [0, 1, 2, 3, 4, 5, 6, 7] ↔ j < 8 := by
  simp only [List.mem_cons, List.not_mem_nil, or_false]
  omega

/-- All drawing a row can do when it does not fault: each pixel it covers flips, and the flag says whether one of them
was 1. -/
theorem drawRow_ok {byte : Byte} {x y : Nat} {p q : Display} {c d : Bool} (h : drawRow byte x y (p, c) = .ok (q, d)) :
    rowInGrid byte x y ∧
    (∀ a b, Display.pixel q a b = (Display.pixel p a b ^^ (decide (b = y) && rowCovers byte x a))) ∧
    (d = true ↔ c = true ∨ ∃ a, rowCovers byte x a = true ∧ Display.pixel p a y = true) := by
  obtain ⟨h1, h2, h3⟩ := drawBits_ok (by decide) h
  have cover : ∀ a, (∃ j ∈ [0, 1, 2, 3, 4, 5, 6, 7], a = x + j ∧ spriteBit byte j = true) ↔ rowCovers byte x a = true := by
    intro a
    simp only [rowCovers, Bool.and_eq_true, decide_eq_true_eq]
    constructor
    · rintro ⟨j, hj, rfl, hb⟩
      have := mem_bitIndices.mp hj
      exact ⟨by omega, by rwa [Nat.add_sub_cancel_left]⟩
    · rintro ⟨⟨h1, h2⟩, hb⟩
      exact ⟨a - x, mem_bitIndices.mpr (by omega), by omega, hb⟩
  refine ⟨fun j hj => h1 j (mem_bitIndices.mpr hj), ?_, ?_⟩
  · intro a b
    rw [h2]
    congr 1
    rw [Bool.eq_iff_iff, Bool.and_eq_true, decide_eq_true_eq, decide_eq_true_eq, cover]
  · rw [h3]
    refine or_congr Iff.rfl ⟨?_, ?_⟩
    · rintro ⟨j, hj, hb, hp⟩
      exact ⟨x + j, (cover _).mp ⟨j, hj, rfl, hb⟩, hp⟩
    · rintro ⟨a, ha, hp⟩
      obtain ⟨j, hj, rfl, hb⟩ := (cover a).mpr ha
      exact ⟨j, hj, hb, hp⟩

theorem drawRow_fits {byte : Byte} {x y : Nat} (h : rowInGrid byte x y) (pc : Display × Bool) :
    ∃ r, drawRow byte x y pc = .ok r :=
  drawBits_fits (fun j hj => h j (mem_bitIndices.mp hj)) pc

theorem spriteCovers_succ (m : Memory) (a x y k px py : Nat) :
    spriteCovers m a x y (k + 1) px py =
      ((decide (py = y) && rowCovers (Memory.read m a) x px) ^^ spriteCovers m (a + 1) x (y + 1) k px py) := by
  unfold spriteCovers
  by_cases h : py = y
  · subst h
    simp
  · by_cases h2 : y + 1 ≤ py
    · have e : a + 1 + (py - (y + 1)) = a + (py - y) := by omega
      simp [h, e, show (y ≤ py ∧ py < y + (k + 1)) ↔ (y + 1 ≤ py ∧ py < y + 1 + k) by omega]
    · rw [decide_eq_false (show ¬ (y + 1 ≤ py ∧ py < y + 1 + k) by omega),
        decide_eq_false (show ¬ (y ≤ py ∧ py < y + (k + 1)) by omega)]
      simp [h]

/-- All DRW's loop can do when it does not fault: every pixel the sprite covers flips, no other changes, and the flag says
whether a covered pixel was 1. -/
theorem drawRows_ok {s : State} {x a y k : Nat} {p q : Display} {c d : Bool}
    (h : drawRows s x a y k (p, c) = .ok (q, d)) :
    (∀ r, r < k → spriteRowOk s.mem a x y r) ∧
    (∀ px py, Display.pixel q px py = (Display.pixel p px py ^^ spriteCovers s.mem a x y k px py)) ∧
    (d = true ↔ c = true ∨ ∃ px py, spriteCovers s.mem a x y k px py = true ∧ Display.pixel p px py = true) := by
  induction k generalizing a y p c with
  | zero =>
    obtain ⟨rfl, rfl⟩ := Prod.mk.inj (Except.ok.inj h)
    have none : ∀ px py, spriteCovers s.mem a x y 0 px py = false := by
      intro px py
      simp [spriteCovers]
    simp [none]
  | succ k ih =>
    unfold drawRows at h
    by_cases ha : a < 4096
    · rw [memRead_of_lt s ha] at h
      simp only at h
      split at h
      · cases h
      · rename_i pc' hrow
        obtain ⟨p', c'⟩ := pc'
        obtain ⟨r1, r2, r3⟩ := drawRow_ok hrow
        obtain ⟨h1, h2, h3⟩ := ih h
        refine ⟨?_, ?_, ?_⟩
        · intro r hr
          cases r with
          | zero => exact ⟨ha, r1⟩
          | succ r =>
            have := h1 r (by omega)
            unfold spriteRowOk at this ⊢
            rwa [show a + (r + 1) = a + 1 + r by omega, show y + (r + 1) = y + 1 + r by omega]
        · intro px py
          rw [h2, r2, spriteCovers_succ, Bool.xor_assoc]
        · rw [h3, r3, or_assoc]
          refine or_congr Iff.rfl ⟨?_, ?_⟩
          · rintro (⟨px, hc, hp⟩ | ⟨px, py, hc, hp⟩)
            · refine ⟨px, y, ?_, hp⟩
              rw [spriteCovers_succ]
              simp [hc, spriteCovers]
            · have hy : y + 1 ≤ py := by
                simp only [spriteCovers, Bool.and_eq_true, decide_eq_true_eq] at hc
                exact hc.1.1
              refine ⟨px, py, ?_, ?_⟩
              · rw [spriteCovers_succ, hc]; simp [show py ≠ y by omega]
              · rw [r2] at hp; simpa [show py ≠ y by omega] using hp
          · rintro ⟨px, py, hc, hp⟩
            rw [spriteCovers_succ] at hc
            by_cases hy : py = y
            · subst hy
              left
              refine ⟨px, ?_, hp⟩
              simpa [spriteCovers, show ¬(py + 1 ≤ py ∧ py < py + 1 + k) by omega] using hc
            · right
              refine ⟨px, py, by simpa [hy] using hc, ?_⟩
              rw [r2]
              simpa [hy] using hp
    · rw [memRead_of_ge s (by omega)] at h
      cases h

/-- DRW's loop never faults when every row can be drawn. -/
theorem drawRows_fits {s : State} {x a y k : Nat} (h : ∀ r, r < k → spriteRowOk s.mem a x y r) (pc : Display × Bool) :
    ∃ r, drawRows s x a y k pc = .ok r := by
  induction k generalizing a y pc with
  | zero => exact ⟨pc, rfl⟩
  | succ k ih =>
    obtain ⟨ha, hg⟩ := h 0 (by omega)
    simp only [Nat.add_zero] at ha hg
    unfold drawRows
    rw [memRead_of_lt s ha]
    obtain ⟨pc', hrow⟩ := drawRow_fits hg pc
    simp only
    rw [hrow]
    refine ih (fun r hr => ?_) pc'
    have := h (r + 1) (by omega)
    unfold spriteRowOk at this ⊢
    rwa [show a + 1 + r = a + (r + 1) by omega, show y + 1 + r = y + (r + 1) by omega]

end Sys2Proof.Machine
end

