-- ==== Sys2Proof/Laws/PerInstr.lean ====
section
/-! SUPPORT. Statements made per instruction. Family TableRow: an instruction's word matches its row of
spec/30_encoding.md R125 (`w AND mask = match`). -/

namespace Sys2Proof.Laws

/-- A field kept by an all-ones mask, and the rest masked. -/
theorem keep_masked {k : Nat} (op : BitVec 4) (b m : BitVec k) : (op ++ b) &&& (0xF#4 ++ m) = op ++ (b &&& m) := by
  have h : op &&& 0xF#4 = op := by revert op; decide
  rw [BitVec.and_append, h]

/-- A field dropped by a zero mask, and the rest masked. -/
theorem drop_masked {k : Nat} (f : BitVec 4) (b m : BitVec k) : (f ++ b) &&& (0x0#4 ++ m) = 0x0#4 ++ (b &&& m) := by
  rw [BitVec.and_append, BitVec.and_zero]

theorem encA_masked (op : BitVec 4) (nnn : BitVec 12) : encA op nnn &&& 0xF000#16 = encA op 0 :=
  (keep_masked op nnn 0#12).trans (by rw [BitVec.and_zero]; rfl)

theorem encXK_group_masked (op : BitVec 4) (x : Reg) (nn : Byte) :
    encXK op x nn &&& 0xF000#16 = encA op 0 := encA_masked op (regBits x ++ nn)

theorem encXYN_group_masked (op : BitVec 4) (x y : Reg) (n : BitVec 4) :
    encXYN op x y n &&& 0xF000#16 = encA op 0 := encA_masked op (regBits x ++ (regBits y ++ n))

theorem encXK_masked (op : BitVec 4) (x : Reg) (nn : Byte) : encXK op x nn &&& 0xF0FF#16 = encXK op 0 nn := by
  have h : nn &&& 0xFF#8 = nn := BitVec.and_allOnes
  exact (keep_masked op (regBits x ++ nn) (0x0#4 ++ 0xFF#8)).trans (by rw [drop_masked, h]; rfl)

theorem encXYN_masked (op : BitVec 4) (x y : Reg) (n : BitVec 4) :
    encXYN op x y n &&& 0xF00F#16 = encXYN op 0 0 n := by
  have h : n &&& 0xF#4 = n := BitVec.and_allOnes
  exact (keep_masked op (regBits x ++ (regBits y ++ n)) (0x0#4 ++ (0x0#4 ++ 0xF#4))).trans
    (by rw [drop_masked, drop_masked, h]; rfl)

namespace TableRow

/-- The instruction's word has the fixed bits of its row (R125). -/
def Statement (i : Instr) : Prop := encode i &&& (rowOf i).mask = (rowOf i).fixed

theorem halt : Statement .halt := rfl
theorem cls : Statement .cls := rfl
theorem ret : Statement .ret := rfl
theorem jp (nnn) : Statement (.jp nnn) := encA_masked _ nnn
theorem call (nnn) : Statement (.call nnn) := encA_masked _ nnn
theorem seImm (x nn) : Statement (.seImm x nn) := encXK_group_masked _ x nn
theorem sneImm (x nn) : Statement (.sneImm x nn) := encXK_group_masked _ x nn
theorem seReg (x y) : Statement (.seReg x y) := encXYN_masked _ x y _
theorem ldImm (x nn) : Statement (.ldImm x nn) := encXK_group_masked _ x nn
theorem addImm (x nn) : Statement (.addImm x nn) := encXK_group_masked _ x nn
theorem ldReg (x y) : Statement (.ldReg x y) := encXYN_masked _ x y _
theorem orReg (x y) : Statement (.orReg x y) := encXYN_masked _ x y _
theorem andReg (x y) : Statement (.andReg x y) := encXYN_masked _ x y _
theorem xorReg (x y) : Statement (.xorReg x y) := encXYN_masked _ x y _
theorem addReg (x y) : Statement (.addReg x y) := encXYN_masked _ x y _
theorem sub (x y) : Statement (.sub x y) := encXYN_masked _ x y _
theorem shr (x y) : Statement (.shr x y) := encXYN_masked _ x y _
theorem subn (x y) : Statement (.subn x y) := encXYN_masked _ x y _
theorem shl (x y) : Statement (.shl x y) := encXYN_masked _ x y _
theorem sneReg (x y) : Statement (.sneReg x y) := encXYN_masked _ x y _
theorem ldI (nnn) : Statement (.ldI nnn) := encA_masked _ nnn
theorem jpV0 (nnn) : Statement (.jpV0 nnn) := encA_masked _ nnn
theorem rnd (x nn) : Statement (.rnd x nn) := encXK_group_masked _ x nn
theorem drw (x y n) : Statement (.drw x y n) := encXYN_group_masked _ x y _
theorem skp (x) : Statement (.skp x) := encXK_masked _ x _
theorem sknp (x) : Statement (.sknp x) := encXK_masked _ x _
theorem ldVxDt (x) : Statement (.ldVxDt x) := encXK_masked _ x _
theorem ldVxK (x) : Statement (.ldVxK x) := encXK_masked _ x _
theorem ldDtVx (x) : Statement (.ldDtVx x) := encXK_masked _ x _
theorem ldStVx (x) : Statement (.ldStVx x) := encXK_masked _ x _
theorem addIVx (x) : Statement (.addIVx x) := encXK_masked _ x _
theorem ldFVx (x) : Statement (.ldFVx x) := encXK_masked _ x _
theorem ldBVx (x) : Statement (.ldBVx x) := encXK_masked _ x _
theorem ldMemVx (x) : Statement (.ldMemVx x) := encXK_masked _ x _
theorem ldVxMem (x) : Statement (.ldVxMem x) := encXK_masked _ x _

end TableRow

end Sys2Proof.Laws
end

