-- ==== Sys2Proof/Tests/Slice0.lean ====
section
/-! SUPPORT. Small tests. Expected values come from spec/95_test_vectors.md (vector number in each comment) or are written
out from the encodings of spec/30_encoding.md R125; and one witness for each statement that has hypotheses. -/

namespace Sys2Proof.Tests

open Sys2Proof.Machine

/-! ### WellFormed: the one check refuses an ill-formed term -/

theorem test_wf_refuses_row_count_16 : (Instr.drw 1 2 16).wf = false := by decide
theorem test_wf_accepts_row_count_15 : (Instr.drw 1 2 15).wf = true := by decide

/-! ### Decoding words written out from R125, one per row -/

theorem test_decode_halt : decodeTableWord 16 0x0000 = some (.halt) := by decide
theorem test_decode_cls : decodeTableWord 16 0x00E0 = some (.cls) := by decide
theorem test_decode_ret : decodeTableWord 16 0x00EE = some (.ret) := by decide
theorem test_decode_jp : decodeTableWord 16 0x1ABC = some (.jp 0xABC#12) := by decide
theorem test_decode_call : decodeTableWord 16 0x2ABC = some (.call 0xABC#12) := by decide
theorem test_decode_seImm : decodeTableWord 16 0x3A5C = some (.seImm 10 0x5C#8) := by decide
theorem test_decode_sneImm : decodeTableWord 16 0x4A5C = some (.sneImm 10 0x5C#8) := by decide
theorem test_decode_seReg : decodeTableWord 16 0x5AB0 = some (.seReg 10 11) := by decide
theorem test_decode_ldImm : decodeTableWord 16 0x6A5C = some (.ldImm 10 0x5C#8) := by decide
theorem test_decode_addImm : decodeTableWord 16 0x7A5C = some (.addImm 10 0x5C#8) := by decide
theorem test_decode_ldReg : decodeTableWord 16 0x8AB0 = some (.ldReg 10 11) := by decide
theorem test_decode_orReg : decodeTableWord 16 0x8AB1 = some (.orReg 10 11) := by decide
theorem test_decode_andReg : decodeTableWord 16 0x8AB2 = some (.andReg 10 11) := by decide
theorem test_decode_xorReg : decodeTableWord 16 0x8AB3 = some (.xorReg 10 11) := by decide
theorem test_decode_addReg : decodeTableWord 16 0x8AB4 = some (.addReg 10 11) := by decide
theorem test_decode_sub : decodeTableWord 16 0x8AB5 = some (.sub 10 11) := by decide
theorem test_decode_shr : decodeTableWord 16 0x8AB6 = some (.shr 10 11) := by decide
theorem test_decode_subn : decodeTableWord 16 0x8AB7 = some (.subn 10 11) := by decide
theorem test_decode_shl : decodeTableWord 16 0x8ABE = some (.shl 10 11) := by decide
theorem test_decode_sneReg : decodeTableWord 16 0x9AB0 = some (.sneReg 10 11) := by decide
theorem test_decode_ldI : decodeTableWord 16 0xA123 = some (.ldI 0x123#12) := by decide
theorem test_decode_jpV0 : decodeTableWord 16 0xB123 = some (.jpV0 0x123#12) := by decide
theorem test_decode_rnd : decodeTableWord 16 0xC45D = some (.rnd 4 0x5D#8) := by decide
theorem test_decode_drw : decodeTableWord 16 0xD12F = some (.drw 1 2 15) := by decide
theorem test_decode_skp : decodeTableWord 16 0xE79E = some (.skp 7) := by decide
theorem test_decode_sknp : decodeTableWord 16 0xE7A1 = some (.sknp 7) := by decide
theorem test_decode_ldVxDt : decodeTableWord 16 0xF707 = some (.ldVxDt 7) := by decide
theorem test_decode_ldVxK : decodeTableWord 16 0xF70A = some (.ldVxK 7) := by decide
theorem test_decode_ldDtVx : decodeTableWord 16 0xF715 = some (.ldDtVx 7) := by decide
theorem test_decode_ldStVx : decodeTableWord 16 0xF718 = some (.ldStVx 7) := by decide
theorem test_decode_addIVx : decodeTableWord 16 0xF71E = some (.addIVx 7) := by decide
theorem test_decode_ldFVx : decodeTableWord 16 0xF729 = some (.ldFVx 7) := by decide
theorem test_decode_ldBVx : decodeTableWord 16 0xF733 = some (.ldBVx 7) := by decide
theorem test_decode_ldMemVx : decodeTableWord 16 0xF755 = some (.ldMemVx 7) := by decide
theorem test_decode_ldVxMem : decodeTableWord 16 0xF765 = some (.ldVxMem 7) := by decide
theorem test_decode_refuses_0nnn : decodeWord 0x0123#16 = .error (.unrecognizedOpcode 0x0123#16) := by decide
theorem test_decode_refuses_5xy1 : decodeWord 0x5121#16 = .error (.unrecognizedOpcode 0x5121#16) := by decide
theorem test_decode_refuses_8xy8 : decodeWord 0x8128#16 = .error (.unrecognizedOpcode 0x8128#16) := by decide
theorem test_decode_refuses_9xyF : decodeWord 0x912F#16 = .error (.unrecognizedOpcode 0x912F#16) := by decide
theorem test_decode_refuses_ExA2 : decodeWord 0xE1A2#16 = .error (.unrecognizedOpcode 0xE1A2#16) := by decide
theorem test_decode_refuses_FxFF : decodeWord 0xF1FF#16 = .error (.unrecognizedOpcode 0xF1FF#16) := by decide
theorem test_decode_refuses_one_byte : decodeBytes [0x12#8] = .error .truncated := by decide

/-! ### One step on a small state -/

/-- The state after reset with some registers set. -/
def regs (l : List (Reg × Byte)) : State := l.foldl (fun s p => s.setV p.1 p.2) State.reset

/-- What is seen of the state after one step on a word placed at the PC; nothing where the step does not complete. -/
def seen {α : Type} (w : Nat) (s : State) (f : State → α) : Option α :=
  match step (s.withFetchWord 16 w) with
  | .next t => some (f t)
  | .fault _ => none
  | .refused _ => none

/-- The fault of one step on a word placed at the PC. -/
def stopped (w : Nat) (s : State) : Option Fault :=
  match step (s.withFetchWord 16 w) with
  | .fault f => some f
  | .next _ => none
  | .refused _ => none

/-- The state after reset with SP entries in use, the last of them `a`. -/
def withCalls (n : Fin 17) (a : Word) : State := State.reset.setStack (Vector.replicate 16 a) n

/-- The state with bytes placed in memory and I pointing at them. -/
def withData (s : State) (i : Word) (bytes : List Byte) : State := (s.setI i).setMem (placeBytes s.mem i.toNat bytes)

/-- V1.1, V6.9 -/
theorem test_halt : seen 0x0000 (State.reset.setDt 5#8) (fun t => (t.pc, t.dt)) = some (0x200#16, 5#8) := by decide
/-- V7.13 -/
theorem test_halt_outcome : stepOutcome State.reset = .halted := by decide
/-- V1.2 -/
theorem test_ret : seen 0x00EE (withCalls 1 0x202#16) (fun t => (t.pc, t.sp)) = some (0x202#16, 0) := by decide
/-- V1.3 -/
theorem test_ret_underflow : stopped 0x00EE State.reset = some (.stackUnderflow 0x200#16) := by decide
/-- V1.5: the sixteenth entry -/
theorem test_call : seen 0x2300 (withCalls 15 0#16) (fun t => (t.pc, t.sp, t.stack[15])) = some (0x300#16, 16, 0x202#16) := by decide
/-- V1.6 -/
theorem test_call_overflow : stopped 0x2300 (withCalls 16 0#16) = some (.stackOverflow 0x200#16) := by decide
/-- V1.19: no tick -/
theorem test_jp : seen 0x1200 ((State.reset.setDt 5#8).setSt 5#8) (fun t => (t.pc, t.dt, t.st)) = some (0x200#16, 5#8, 5#8) := by decide
/-- V1.8 -/
theorem test_jp_to_the_last_byte : (match step (State.reset.setPc 0xFFF#16) with | .fault f => some f | .next _ => none | .refused _ => none) = some (.memoryOutOfRange 0x1000) := by decide
/-- V1.9 -/
theorem test_seImm_taken : seen 0x3342 (regs [(3, 0x42#8)]) (fun t => t.pc) = some (0x204#16) := by decide
/-- V1.10 -/
theorem test_seImm_not_taken : seen 0x3342 (regs [(3, 0x41#8)]) (fun t => t.pc) = some (0x202#16) := by decide
/-- V1.11 -/
theorem test_sneImm_taken : seen 0x4342 (regs [(3, 0x41#8)]) (fun t => t.pc) = some (0x204#16) := by decide
/-- V1.12 -/
theorem test_sneImm_not_taken : seen 0x4342 (regs [(3, 0x42#8)]) (fun t => t.pc) = some (0x202#16) := by decide
/-- V1.13 -/
theorem test_seReg_taken : seen 0x5120 (regs [(1, 7#8), (2, 7#8)]) (fun t => t.pc) = some (0x204#16) := by decide
/-- V1.14 -/
theorem test_seReg_not_taken : seen 0x5120 (regs [(1, 7#8), (2, 8#8)]) (fun t => t.pc) = some (0x202#16) := by decide
/-- V1.15 -/
theorem test_sneReg_taken : seen 0x9120 (regs [(1, 7#8), (2, 8#8)]) (fun t => t.pc) = some (0x204#16) := by decide
/-- V1.16 -/
theorem test_sneReg_not_taken : seen 0x9120 (regs [(1, 7#8), (2, 7#8)]) (fun t => t.pc) = some (0x202#16) := by decide
/-- V1.18: not reduced -/
theorem test_jpV0 : seen 0xBFFF (regs [(0, 0xFF#8)]) (fun t => t.pc) = some (0x10FE#16) := by decide
/-- V2.1 -/
theorem test_ldImm : seen 0x6AFF (State.reset) (fun t => (t.getV 10, t.pc)) = some (0xFF#8, 0x202#16) := by decide
/-- V6.7 -/
theorem test_ldImm_ticks : seen 0x6000 ((State.reset.setDt 5#8).setSt 5#8) (fun t => (t.getV 0, t.dt, t.st)) = some (0#8, 4#8, 4#8) := by decide
/-- V2.2 -/
theorem test_addImm_wraps : seen 0x7A01 (regs [(10, 0xFF#8), (15, 9#8)]) (fun t => (t.getV 10, t.getV 15)) = some (0#8, 9#8) := by decide
/-- V2.3 -/
theorem test_addImm_on_vf : seen 0x7F01 (regs [(15, 1#8)]) (fun t => t.getV 15) = some (2#8) := by decide
/-- V2.4 -/
theorem test_ldReg : seen 0x8120 (regs [(2, 0x33#8)]) (fun t => t.getV 1) = some (0x33#8) := by decide
/-- V2.5 -/
theorem test_or : seen 0x8121 (regs [(1, 0x0F#8), (2, 0xF0#8), (15, 7#8)]) (fun t => (t.getV 1, t.getV 15)) = some (0xFF#8, 7#8) := by decide
/-- V2.6 -/
theorem test_and : seen 0x8122 (regs [(1, 0x3C#8), (2, 0x0F#8)]) (fun t => t.getV 1) = some (0x0C#8) := by decide
/-- V2.7 -/
theorem test_xor : seen 0x8123 (regs [(1, 0xFF#8), (2, 0x0F#8)]) (fun t => t.getV 1) = some (0xF0#8) := by decide
/-- V2.8 -/
theorem test_xor_same : seen 0x8113 (regs [(1, 0x5A#8)]) (fun t => t.getV 1) = some (0#8) := by decide
/-- V2.9 -/
theorem test_addReg_carry : seen 0x8124 (regs [(1, 0xFF#8), (2, 1#8)]) (fun t => (t.getV 1, t.getV 15)) = some (0#8, 1#8) := by decide
/-- V2.10 -/
theorem test_addReg_on_vf : seen 0x8F14 (regs [(1, 0x80#8), (15, 0x80#8)]) (fun t => t.getV 15) = some (1#8) := by decide
/-- V2.14 -/
theorem test_sub_borrow : seen 0x8125 (regs [(1, 3#8), (2, 10#8)]) (fun t => (t.getV 1, t.getV 15)) = some (8#8, 0#8) := by decide
/-- V2.15 -/
theorem test_sub_borrow_256 : seen 0x8125 (regs [(1, 0#8), (2, 0xFF#8)]) (fun t => (t.getV 1, t.getV 15)) = some (0#8, 0#8) := by decide
/-- V2.18 -/
theorem test_shr : seen 0x8106 (regs [(1, 0x81#8)]) (fun t => (t.getV 1, t.getV 15)) = some (0x40#8, 1#8) := by decide
/-- V2.20 -/
theorem test_shr_on_vf : seen 0x8F06 (regs [(15, 3#8)]) (fun t => t.getV 15) = some (1#8) := by decide
/-- V2.21 -/
theorem test_subn : seen 0x8127 (regs [(1, 3#8), (2, 10#8)]) (fun t => (t.getV 1, t.getV 15)) = some (7#8, 1#8) := by decide
/-- V2.22 -/
theorem test_subn_borrow : seen 0x8127 (regs [(1, 10#8), (2, 3#8)]) (fun t => (t.getV 1, t.getV 15)) = some (6#8, 0#8) := by decide
/-- V2.26 -/
theorem test_shl : seen 0x810E (regs [(1, 0x81#8)]) (fun t => (t.getV 1, t.getV 15)) = some (2#8, 1#8) := by decide
/-- V2.28 -/
theorem test_shl_on_vf : seen 0x8F0E (regs [(15, 0xC1#8)]) (fun t => t.getV 15) = some (0x82#8) := by decide
/-- V2.29: the byte drawn is B7 -/
theorem test_rnd : (match execRndWith 0xB7#8 3 0x0F#8 State.reset with | .next t => some (t.getV 3) | .fault _ => none | .refused _ => none) = some 7#8 := by decide
/-- V2.30: a byte is still drawn -/
theorem test_rnd_draws_one : seen 0xC300 (State.reset) (fun t => t.draws) = some (State.reset.draws + 1) := by decide
/-- V3.1 -/
theorem test_ldI : seen 0xA2F0 (State.reset) (fun t => t.i) = some (0x2F0#16) := by decide
/-- V3.3 -/
theorem test_addI_above_fff : seen 0xF21E ((regs [(2, 2#8)]).setI 0xFFE#16) (fun t => (t.i, t.getV 15)) = some (0x1000#16, 1#8) := by decide
/-- V3.5 -/
theorem test_addI_overflow : stopped 0xF21E ((regs [(2, 0x10#8)]).setI 0xFFF8#16) = some (.indexOverflow 0x10008) := by decide
/-- V3.9 -/
theorem test_ldF_not_masked : seen 0xF529 (regs [(5, 0xFF#8)]) (fun t => t.i) = some (0x4FB#16) := by decide
/-- V3.10 -/
theorem test_ldB : seen 0xF333 ((regs [(3, 156#8)]).setI 0x300#16) (fun t => (Memory.read t.mem 0x300, Memory.read t.mem 0x301, Memory.read t.mem 0x302, t.i)) = some (1#8, 5#8, 6#8, 0x300#16) := by decide
/-- V3.13 -/
theorem test_ldB_past_the_end : stopped 0xF333 ((regs [(3, 1#8)]).setI 0xFFE#16) = some (.memoryOutOfRange 0x1000) := by decide
/-- V3.14 -/
theorem test_ldMem : seen 0xF255 ((regs [(0, 1#8), (1, 2#8), (2, 3#8), (3, 4#8)]).setI 0x300#16) (fun t => (Memory.read t.mem 0x300, Memory.read t.mem 0x302, Memory.read t.mem 0x303, t.i)) = some (1#8, 3#8, 0#8, 0x300#16) := by decide
/-- V3.16 -/
theorem test_ldMem_past_the_end : stopped 0xF255 (State.reset.setI 0xFFE#16) = some (.memoryOutOfRange 0x1000) := by decide
/-- V3.17 -/
theorem test_ldVxMem : seen 0xF265 (withData (regs [(3, 9#8)]) 0x300#16 [1#8, 5#8, 6#8, 7#8]) (fun t => (t.getV 0, t.getV 1, t.getV 2, t.getV 3, t.i)) = some (1#8, 5#8, 6#8, 9#8, 0x300#16) := by decide
/-- V3.18 -/
theorem test_ldVxMem_all : seen 0xFF65 (withData State.reset 0x300#16 [0#8, 0#8, 0#8, 0#8, 0#8, 0#8, 0#8, 0#8, 0#8, 0#8, 0#8, 0#8, 0#8, 0#8, 0x66#8, 0x77#8]) (fun t => (t.getV 14, t.getV 15)) = some (0x66#8, 0x77#8) := by decide

/-- A display with the given pixels set. -/
def pixels (l : List (Nat × Nat)) : Display :=
  l.foldl (fun p c => match Display.toggle p c.1 c.2 with | .ok q => q | .error _ => p) clearedDisplay

/-- V4.1 -/
theorem test_cls : seen 0x00E0 ((State.reset.setPix (pixels [(0, 0), (63, 31)])).setVF 3#8) (fun t => (t.pix.countSet, t.getV 15)) = some (0, 3#8) := by decide
/-- V4.10: two pixels set -/
theorem test_count : (pixels [(0, 0), (63, 31)]).countSet = 2 := by decide
/-- V4.2 -/
theorem test_drw : seen 0xD012 (withData (regs [(0, 5#8), (1, 2#8)]) 0x20C#16 [0xC3#8, 0x81#8]) (fun t => (t.pix.countSet, [t.pix.pixel 5 2, t.pix.pixel 6 2, t.pix.pixel 11 2, t.pix.pixel 12 2, t.pix.pixel 5 3, t.pix.pixel 12 3], t.getV 15)) = some (6, [true, true, true, true, true, true], 0#8) := by decide
/-- V4.3 -/
theorem test_drw_collision : seen 0xD011 ((withData (regs [(0, 5#8), (1, 2#8)]) 0x20C#16 [0x80#8]).setPix (pixels [(5, 2)])) (fun t => (t.pix.pixel 5 2, t.getV 15)) = some (false, 1#8) := by decide
/-- V5.1 -/
theorem test_skp_match : seen 0xE19E ((regs [(1, 5#8)]).setKey (some 5)) (fun t => (t.pc, t.key)) = some (0x204#16, none) := by decide
/-- V5.2 -/
theorem test_skp_consumes : seen 0xE19E ((regs [(1, 5#8)]).setKey (some 3)) (fun t => (t.pc, t.key)) = some (0x202#16, none) := by decide
/-- V5.5 -/
theorem test_sknp_no_match : seen 0xE1A1 ((regs [(1, 5#8)]).setKey (some 3)) (fun t => (t.pc, t.key)) = some (0x204#16, some 3) := by decide
/-- V5.6 -/
theorem test_sknp_match : seen 0xE1A1 ((regs [(1, 5#8)]).setKey (some 5)) (fun t => (t.pc, t.key)) = some (0x202#16, some 5) := by decide
/-- V5.8 -/
theorem test_key_taken : seen 0xF30A (State.reset.setKey (some 7)) (fun t => (t.getV 3, t.key, t.pc)) = some (7#8, none, 0x202#16) := by decide
/-- V5.9 -/
theorem test_key_wait : seen 0xF30A (State.reset.setDt 5#8) (fun t => (t.pc, t.dt)) = some (0x200#16, 5#8) := by decide
/-- V6.1 -/
theorem test_ldVxDt : seen 0xF307 (State.reset.setDt 5#8) (fun t => (t.getV 3, t.dt)) = some (5#8, 4#8) := by decide
/-- V6.3 -/
theorem test_ldDtVx : seen 0xF015 (regs [(0, 3#8)]) (fun t => t.dt) = some (2#8) := by decide
/-- V6.4 -/
theorem test_ldDtVx_one : seen 0xF015 (regs [(0, 1#8)]) (fun t => t.dt) = some (0#8) := by decide
/-- V6.6 -/
theorem test_ldStVx : seen 0xF218 (regs [(2, 10#8)]) (fun t => t.st) = some (9#8) := by decide
/-- V7.1 -/
theorem test_illegal_word : stopped 0x5121 State.reset = some (.unrecognizedOpcode 0x5121#16 0x200#16) := by decide
/-- V7.6 -/
theorem test_fetch_at_1000 : (match step (State.reset.setPc 0x1000#16) with | .fault f => some f | .next _ => none | .refused _ => none) = some (.memoryOutOfRange 0x1000) := by decide
/-- V7.7 -/
theorem test_odd_pc : seen 0x602A (State.reset.setPc 0x201#16) (fun t => (t.getV 0, t.pc)) = some (0x2A#8, 0x203#16) := by decide
/-- V7.8 -/
theorem test_sticky_fault : stopped 0x6000 (State.faulted (.stackUnderflow 0x200#16) State.reset) = some (.stackUnderflow 0x200#16) := by decide
/-- V7.10 -/
theorem test_populate : ((populateRegisters State.reset [1#8, 2#8, 3#8] (regs [(3, 9#8)])).2.getV 2, (populateRegisters State.reset [1#8, 2#8, 3#8] (regs [(3, 9#8)])).2.getV 3) = (3#8, 9#8) := by decide
/-- V7.11 -/
theorem test_populate_too_many : (populateRegisters State.reset (List.replicate 17 0#8) State.reset).1 = some (.registerIndexOutOfRange 16) := by decide
/-- V5.11 -/
theorem test_press_16 : (pressKey 16 State.reset).1 = false := by decide
/-- E1 -/
theorem test_program_too_large : (loadProgram (List.replicate 3585 0xAB#8) State.reset).1 = false := by
  unfold loadProgram
  rw [if_neg (by rw [List.length_replicate]; decide)]
/-- E1: 3584 bytes are accepted. -/
theorem test_program_fits : (loadProgram (List.replicate 3584 0xAB#8) State.reset).1 = true := by
  unfold loadProgram
  rw [if_pos (by rw [List.length_replicate]; decide)]
/-- V3.19: the font is writable. -/
theorem test_font_overwrite : Memory.read (Memory.write State.reset.mem 0 0xAA#8) 0 = 0xAA#8 :=
  (Memory.read_write (lo := 0) (m := []) rfl 0 0 0xAA#8).trans (if_pos rfl)

/-! ### Witnesses: for each statement with hypotheses, a concrete case that meets them -/

theorem witness_DecodeFollowsMatchAndMask : decodeWord 0x1234#16 = .ok (.jp 0x234#12) ∧
    rowOf (.jp 0x234#12) ∈ opcodeTable ∧ (rowOf (.jp 0x234#12)).matches 0x1234#16 = true := by decide
theorem witness_PatternsDisjoint : rowOf (.addReg 0 0) ∈ opcodeTable ∧ (rowOf (.addReg 0 0)).matches 0x8124#16 = true := by
  decide
theorem witness_IllegalWordsFault : ∃ s : State, s.fault = none ∧ fetch s = .ok 0x5121#16 ∧ illegalWord 0x5121#16 = true :=
  ⟨State.reset.withFetchWord 16 0x5121, by decide⟩
theorem witness_DecodeEncodeAgree : (Instr.drw 1 2 15).wf = true ∧ (Instr.shl 3 4).wf = true := by decide
theorem witness_EncodeDecodeAgree : decodeWord 0x8127#16 = .ok (.subn 1 2) := by decide
theorem witness_FetchIsBigEndian : (0xFFE#16).toNat < 4095 ∧ (0xFFF#16).toNat = 4095 ∧ 4096 ≤ (0x1000#16).toNat := by decide
theorem witness_StepRunsTheDecodedInstruction : ∃ s : State, s.fault = none ∧ fetch s = .ok 0x6005#16 ∧
    decodeWord 0x6005#16 = .ok (.ldImm 0 5#8) ∧ (Instr.ldImm 0 5#8).wf = true :=
  ⟨State.reset.withFetchWord 16 0x6005, by decide⟩
theorem witness_StepRunsTheDecodedInstruction_fetch_fault : ∃ s : State, s.fault = none ∧
    fetch s = .error (.memoryOutOfRange 4096) := ⟨State.reset.setPc 0xFFF#16, by decide⟩
theorem witness_FaultIsSticky : (State.faulted (.indexOverflow 0x10000) State.reset).fault = some (.indexOverflow 0x10000) :=
  rfl
theorem witness_FirstFaultIsRecorded : ∃ s u : State, s.fault = none ∧ step s = .fault (.memoryOutOfRange 4096) ∧
    Memory.wf u.mem = true := ⟨State.reset.setPc 0xFFF#16, State.reset, rfl, rfl, rfl⟩
theorem witness_FaultKindsAndCauses_overflow : exec (.call 0) (withCalls 16 0) = .fault (.stackOverflow 0x200#16) := rfl
theorem witness_FaultKindsAndCauses_underflow : exec .ret State.reset = .fault (.stackUnderflow 0x200#16) := rfl
theorem witness_FaultKindsAndCauses_memory :
    exec (.ldVxMem 0) (State.reset.setI 0x1000#16) = .fault (.memoryOutOfRange 4096) := rfl
theorem witness_FaultKindsAndCauses_display :
    exec (.drw 0 1 1) (withData (regs [(0, 64#8)]) 0x300#16 [0x80#8]) = .fault (.displayOutOfRange 64 0) := rfl
theorem witness_FaultKindsAndCauses_index :
    exec (.addIVx 0) ((regs [(0, 1#8)]).setI 0xFFFF#16) = .fault (.indexOverflow 0x10000) := rfl
theorem witness_RetireByClass_advance : (∃ t, exec (.seImm 0 0) State.reset = .next t) ∧
    retireClass (.seImm 0 0) = .advance := ⟨⟨_, rfl⟩, rfl⟩
theorem witness_RetireByClass_setsPc : (∃ t, exec (.jp 0) State.reset = .next t) ∧ retireClass (.jp 0) = .setsPc :=
  ⟨⟨_, rfl⟩, rfl⟩
theorem witness_RetireByClass_halts : (∃ t, exec .halt State.reset = .next t) ∧ retireClass .halt = .halts :=
  ⟨⟨_, rfl⟩, rfl⟩
theorem witness_RetireByClass_waits : (∃ t, exec (.ldVxK 0) State.reset = .next t) ∧ State.reset.key = none ∧
    (∃ t, exec (.ldVxK 0) (State.reset.setKey (some 3)) = .next t) ∧ (State.reset.setKey (some 3)).key ≠ none ∧
    retireClass (.ldVxK 0) = .waits := ⟨⟨_, rfl⟩, rfl, ⟨_, rfl⟩, by decide, rfl⟩
theorem witness_FrameOfEveryInstruction : Memory.wf (State.reset.setI 0x300#16).mem = true ∧
    ∃ t, exec (.ldMemVx 15) (State.reset.setI 0x300#16) = .next t := ⟨rfl, _, rfl⟩
theorem witness_ResetValues : 79 < 80 ∧ 80 ≤ 80 ∧ 80 < 4096 ∧ 63 < 64 ∧ 31 < 32 := by decide
theorem witness_ClearScreen : 63 < 64 ∧ 31 < 32 := by decide
theorem witness_MemoryInterface : Memory.wf State.reset.mem = true ∧ 4095 < 4096 ∧ 4096 ≤ 4096 := by decide
theorem witness_LoaderWritesTheProgramOnly : Memory.wf State.reset.mem = true ∧
    (List.replicate 3584 (0 : Byte)).length ≤ 3584 ∧ 3584 < (List.replicate 3585 (0 : Byte)).length :=
  ⟨rfl, by rw [List.length_replicate], by rw [List.length_replicate]; decide⟩
theorem witness_FetchSeesTheLastStore : ∃ t u : State, Memory.wf State.reset.mem = true ∧
    memWrite State.reset State.reset.pc.toNat 0x12#8 = .ok t ∧ fetch t = .ok 0x1200#16 ∧
    memWrite State.reset (State.reset.pc.toNat + 1) 0x12#8 = .ok u ∧ fetch u = .ok 0x0012#16 :=
  ⟨_, _, rfl, rfl, by decide, rfl, by decide⟩
theorem witness_HaltChangesNothing : State.reset.fault = none ∧ fetch State.reset = .ok 0x0000#16 := by decide
theorem witness_RetPops : (withCalls 16 0x202#16).sp.val = 15 + 1 ∧ (withCalls 1 0x202#16).sp.val = 0 + 1 ∧
    State.reset.sp.val = 0 := by decide
theorem witness_CallPushes : (withCalls 15 0).sp.val < 16 ∧ (withCalls 16 0).sp.val = 16 := by decide
theorem witness_CallThenRetReturns : ∃ t, exec (.call 0x300#12) State.reset = .next t ∧ SameStack t t := ⟨_, rfl, rfl, rfl⟩
theorem witness_SkipsOnRegister : (3 : Reg) = 3 := rfl
theorem witness_LogicBitByBit : 7 < 8 ∧ (3 : Reg) = 3 := by decide
/-- The guard of the clauses about Vx where x is not VF. -/
theorem witness_not_vf : (14 : Reg) ≠ 15 := by decide
theorem witness_AddImmediateWraps : (14 : Reg) ≠ 15 := witness_not_vf
theorem witness_AddRegisterCarries : (14 : Reg) ≠ 15 := witness_not_vf
theorem witness_SubtractWithSourceBorrow : (14 : Reg) ≠ 15 := witness_not_vf
theorem witness_ReverseSubtractWithSourceBorrow : (14 : Reg) ≠ 15 ∧
    ((regs [(14, 1#8)]).getV 0).toNat < ((regs [(14, 1#8)]).getV 14).toNat := by decide
theorem witness_ShiftRight : (14 : Reg) ≠ 15 := witness_not_vf
theorem witness_ShiftLeft : (14 : Reg) ≠ 15 := witness_not_vf
theorem witness_RandomByteIsMasked : (∀ x nn, Instr.ldImm 0 0 ≠ .rnd x nn) ∧
    (∃ t, exec (.ldImm 0 0) State.reset = .next t) ∧ (0x7F#8).getLsbD 7 = false := ⟨by simp, ⟨_, rfl⟩, rfl⟩
theorem witness_AddToIndex : ((State.reset.setI 0xFFFF#16).i.toNat + ((State.reset.setI 0xFFFF#16).getV 0).toNat ≤ 0xFFFF) ∧
    0xFFFF < ((regs [(0, 1#8)]).setI 0xFFFF#16).i.toNat + (((regs [(0, 1#8)]).setI 0xFFFF#16).getV 0).toNat := by decide
theorem witness_DecimalDigitsStored : Memory.wf State.reset.mem = true ∧ (State.reset.setI 4093#16).i.toNat + 2 < 4096 ∧
    4096 ≤ (State.reset.setI 4094#16).i.toNat + 2 := by decide
theorem witness_RegistersStored : Memory.wf State.reset.mem = true ∧
    (State.reset.setI 4080#16).i.toNat + (15 : Reg).val < 4096 ∧
    4096 ≤ (State.reset.setI 4081#16).i.toNat + (15 : Reg).val := by decide
theorem witness_RegistersLoaded : (State.reset.setI 4080#16).i.toNat + (15 : Reg).val < 4096 ∧
    4096 ≤ (State.reset.setI 4081#16).i.toNat + (15 : Reg).val ∧ (15 : Reg) ≤ 15 ∧ (14 : Reg) < 15 := by decide
theorem witness_StoreThenLoadRegisters : Memory.wf State.reset.mem = true ∧
    ∃ t q : State, exec (.ldMemVx 1) (State.reset.setI 0x300#16) = .next t ∧ q.mem = t.mem ∧ q.i = t.i := ⟨rfl, _, _, rfl, rfl, rfl⟩
theorem witness_SpriteIsXored : ∃ s : State, ∀ r, r < 1 →
    spriteRowOk s.mem s.i.toNat (s.getV 0).toNat (s.getV 1).toNat r :=
  ⟨withData (regs [(0, 60#8), (1, 31#8)]) 4095#16 [0xF0#8], by unfold spriteRowOk rowInGrid; decide⟩
theorem witness_SpriteFirstFailingAccess_memory : ∃ s : State,
    (∀ q, q < 1 → spriteRowOk s.mem s.i.toNat (s.getV 0).toNat (s.getV 1).toNat q) ∧ 4096 ≤ s.i.toNat + 1 :=
  ⟨withData State.reset 4095#16 [0x80#8], by unfold spriteRowOk rowInGrid; decide⟩
theorem witness_SpriteFirstFailingAccess_display : ∃ s : State,
    (∀ q, q < 1 → spriteRowOk s.mem s.i.toNat (s.getV 0).toNat (s.getV 1).toNat q) ∧ s.i.toNat + 1 < 4096 ∧
    spriteBit (Memory.read s.mem (s.i.toNat + 1)) 4 = true ∧ ¬((s.getV 0).toNat + 4 < 64 ∧ (s.getV 1).toNat + 1 < 32) ∧
    ∀ c, c < 4 → spriteBit (Memory.read s.mem (s.i.toNat + 1)) c = true →
      (s.getV 0).toNat + c < 64 ∧ (s.getV 1).toNat + 1 < 32 :=
  ⟨withData (regs [(0, 60#8)]) 0x300#16 [0xF0#8, 0xF8#8], by unfold spriteRowOk rowInGrid; decide⟩
theorem witness_DrawingTwiceRestores : (0 : Reg) ≠ 15 ∧ (1 : Reg) ≠ 15 ∧
    ∃ t, exec (.drw 0 1 1) (withData State.reset 0x300#16 [0x80#8]) = .next t := ⟨by decide, by decide, _, rfl⟩
theorem witness_KeyWait : (State.reset.setKey (some 15)).key = some 15 ∧ State.reset.key = none ∧
    (State.reset.withFetchWord 16 0xF30A).fault = none ∧ fetch (State.reset.withFetchWord 16 0xF30A) = .ok 0xF30A#16 ∧
    decodeWord 0xF30A#16 = .ok (.ldVxK 3) := by decide
theorem witness_KeypadOperations : 16 ≤ 16 := Nat.le_refl 16
theorem witness_RegisterPorts : (List.replicate 16 (0 : Byte)).length ≤ 16 ∧ 16 < (List.replicate 17 (0 : Byte)).length ∧
    State.reset.fault = none ∧ (State.faulted (.stackUnderflow 0x200#16) State.reset).fault = some (.stackUnderflow 0x200#16) ∧
    Memory.wf State.reset.mem = true ∧ 16 ≤ 16 := by decide
theorem witness_RunEndsOnHaltOrFault : ∃ o t, runPort State.reset 1 State.reset = some (o, t) := ⟨_, _, rfl⟩
theorem witness_SoundTimerIsNeverRead : (∃ t, exec (.ldStVx 0) State.reset = .next t) ∧
    exec .ret State.reset = .fault (.stackUnderflow 0x200#16) := ⟨⟨_, rfl⟩, rfl⟩
theorem witness_StaleStackEntriesAreNeverRead : (withCalls 1 0x202#16).sp.val ≤ 1 ∧
    (∃ t, exec .ret (withCalls 1 0x202#16) = .next t) ∧ State.reset.sp.val ≤ 0 ∧
    exec .ret State.reset = .fault (.stackUnderflow 0x200#16) := ⟨by decide, ⟨_, rfl⟩, by decide, rfl⟩
theorem witness_InvariantKeptByStep : ∃ s t : State, s.Inv ∧ step s = .next t :=
  ⟨(withCalls 1 4096#16).withFetchWord 16 0x00EE, _,
    ⟨by decide, by unfold State.pcBounded; decide, by unfold State.returnsBounded; decide⟩, rfl⟩
theorem witness_InvariantWhileNotFaulted : ∃ s : State, Reachable s ∧ s.fault = none :=
  ⟨_, Reachable.host State.reset (.press 5) Reachable.reset, rfl⟩

/-- R96, R97: a program loaded after a fault is read back, whatever cells the unspecified memory was made of. -/
theorem test_load_after_fault :
    Memory.read (loadProgram [0#8] (State.faulted (.stackUnderflow 0x200#16) (State.reset.setMem [(4000, 1#8), (512, 7#8)]))).2.mem 512
      = 0#8 := by decide

end Sys2Proof.Tests
end

section
/-! PROOFS. The frame of one instruction (spec/10_state.md R43, R44, R46, R51 to R57, spec/20_memory.md R93): what each
update of the state leaves unchanged, what each instruction leaves unchanged, and which bytes it stores. -/

namespace Sys2Proof.Machine

/-! ### Placing bytes -/

/-- A run of placed bytes leaves every address outside it as it was, whether or not the run fits. -/
theorem Memory.read_placeBytes_outside {m : Memory} (hm : Memory.wf m = true) (a : Nat) (bs : List Byte) {b : Nat}
    (hb : ¬(a ≤ b ∧ b < a + bs.length)) : Memory.read (placeBytes m a bs) b = Memory.read m b := by
  induction bs generalizing m a with
  | nil => rfl
  | cons c bs ih =>
    simp only [List.length_cons] at hb
    unfold placeBytes
    split
    · rename_i ha
      rw [ih (Memory.wf_write hm ha c) (a + 1) (by omega), Memory.read_write (lo := 0) hm, if_neg (by omega)]
    · exact ih hm (a + 1) (by omega)

/-! ### Frames of the state's updates -/

/-- A frame that also keeps the cells of memory themselves. `Unchanged` compares what memory reads; that the canonical form
is kept is a fact about the cells. -/
structure Framed (es : List Elem) (rs : List Reg) (s t : State) : Prop extends Unchanged es rs s t where
  cells : .memory ∉ es → t.mem = s.mem

namespace Framed

variable {es : List Elem} {rs : List Reg} {s t : State}

theorem refl : Framed es rs s s where
  regs _ _ := rfl
  index _ := rfl
  stack _ := ⟨rfl, rfl⟩
  memory _ _ := rfl
  display _ := rfl
  key _ := rfl
  random _ := rfl
  fault := rfl
  cells _ := rfl

theorem setV (h : Framed es rs s t) {r : Reg} (hr : r ∈ rs) (b : Byte) : Framed es rs s (t.setV r b) :=
  { h with regs := fun q hq => (State.getV_setV_ne t (ne_of_mem_of_not_mem hr hq).symm b).trans (h.regs q hq) }

theorem setVF (h : Framed es rs s t) (hr : 15 ∈ rs) (b : Byte) : Framed es rs s (t.setVF b) := h.setV hr b

/-- A run of register writes from V0 on stays among the registers below its length. -/
theorem setVs (h : Framed es rs s t) {bs : List Byte} (hr : ∀ r : Reg, r.val < bs.length → r ∈ rs) :
    Framed es rs s (t.setVs 0 bs) := by
  have hregs : SameRegsBut rs s (t.setVs 0 bs) := fun r hq => by
    have hlen : bs.length ≤ r.val := Nat.le_of_not_lt fun hlt => hq (hr r hlt)
    rw [State.getV_setVs, ← h.regs r hq]
    simp [hlen]
  rw [State.setVs_eq] at hregs ⊢
  exact { h with regs := hregs }

theorem setI (h : Framed es rs s t) (he : .index ∈ es) (w : Word) : Framed es rs s (t.setI w) :=
  { h with index := fun hn => absurd he hn }

theorem setPc (h : Framed es rs s t) (w : Word) : Framed es rs s (t.setPc w) := { h with }

theorem setDt (h : Framed es rs s t) (b : Byte) : Framed es rs s (t.setDt b) := { h with }

theorem setSt (h : Framed es rs s t) (b : Byte) : Framed es rs s (t.setSt b) := { h with }

theorem setKey (h : Framed es rs s t) (he : .key ∈ es) (k : Option Key) : Framed es rs s (t.setKey k) :=
  { h with key := fun hn => absurd he hn }

theorem setPix (h : Framed es rs s t) (he : .display ∈ es) (p : Display) : Framed es rs s (t.setPix p) :=
  { h with display := fun hn => absurd he hn }

theorem setMem (h : Framed es rs s t) (he : .memory ∈ es) (m : Memory) : Framed es rs s (t.setMem m) :=
  { h with memory := fun hn => absurd he hn, cells := fun hn => absurd he hn }

theorem setStack (h : Framed es rs s t) (he : .stack ∈ es) (k : Vector Word 16) (n : Fin 17) :
    Framed es rs s (t.setStack k n) :=
  { h with stack := fun hn => absurd he hn }

theorem setDraws (h : Framed es rs s t) (he : .random ∈ es) (n : Nat) : Framed es rs s (t.setDraws n) :=
  { h with random := fun hn => absurd he hn }

theorem retire (h : Framed es rs s t) : Framed es rs s (retire t) :=
  ((h.setPc _).setDt _).setSt _

theorem skipIf (h : Framed es rs s t) (c : Bool) : Framed es rs s (skipIf c t) := by
  cases c
  · exact h
  · exact h.setPc _

end Framed

/-! ### The two instructions that branch on the state -/

/-- ADD_I_VX completes only where the sum fits, with the flag and the sum written (R251). -/
theorem execAddIVx_next {x : Reg} {s t : State} (h : execAddIVx x s = .next t) :
    s.i.toNat + (s.getV x).toNat ≤ 0xFFFF ∧
      t = retire ((s.setVF (indexFlag (s.i.toNat + (s.getV x).toNat))).setI (s.i + wideReg s x)) := by
  simp only [execAddIVx] at h
  split at h
  · cases h
  · rename_i hfit
    cases h
    exact ⟨Nat.le_of_not_lt hfit, rfl⟩

/-- LD_VX_K waits with nothing changed, or takes the pending key (R297). -/
theorem execLdVxK_next {x : Reg} {s t : State} (h : execLdVxK x s = .next t) :
    (s.key = none ∧ t = s) ∨
      ∃ k : Key, s.key = some k ∧ t = retire ((s.setKey none).setV x (BitVec.ofNat 8 k.val)) := by
  simp only [execLdVxK, takeKey] at h
  split at h
  · rename_i k hk
    cases h
    exact .inr ⟨k, hk, rfl⟩
  · rename_i hk
    cases h
    exact .inl ⟨hk, rfl⟩

/-! ### What each instruction leaves unchanged and what it stores -/

/-- The registers LD_VX_MEM may write are those up to x. -/
theorem mem_writtenRegs_ldVxMem (x r : Reg) : r ∈ writtenRegs (.ldVxMem x) ↔ r.val < x.val + 1 := by
  simp only [writtenRegs, List.mem_filter, List.mem_finRange, true_and, decide_eq_true_eq]
  exact Nat.lt_succ_iff.symm

/-- Every instruction keeps all but the registers and elements its rule names. -/
theorem exec_framed {i : Instr} {s t : State} (h : exec i s = .next t) :
    Framed (writtenElems i) (writtenRegs i) s t := by
  cases i with
  | halt => cases h; exact .refl
  | cls => cases h; exact (Framed.refl.setPix (List.mem_singleton_self _) _).retire
  | ret =>
    obtain ⟨r, hr, rfl⟩ := answerOf_map_next h
    obtain ⟨k, hk, hlt, rfl⟩ := popStack_ok hr
    exact (Framed.refl.setStack (List.mem_singleton_self _) _ _).setPc _
  | call nnn =>
    obtain ⟨u, hu, rfl⟩ := answerOf_map_next h
    obtain ⟨hlt, rfl⟩ := pushStack_ok hu
    exact (Framed.refl.setStack (List.mem_singleton_self _) _ _).setPc _
  | jp nnn | jpV0 nnn => cases h; exact Framed.refl.setPc _
  | seImm x nn | sneImm x nn | seReg x y | sneReg x y | sknp x => cases h; exact (Framed.refl.skipIf _).retire
  | ldImm x nn | addImm x nn | ldReg x y | orReg x y | andReg x y | xorReg x y | ldVxDt x =>
    cases h; exact (Framed.refl.setV (List.mem_singleton_self x) _).retire
  | addReg x y | sub x y | subn x y =>
    cases h
    exact ((Framed.refl.setV (List.mem_cons_self (a := x)) _).setVF (by simp) _).retire
  | shr x y | shl x y =>
    cases h
    exact ((Framed.refl.setVF (by simp) _).setV (List.mem_cons_self (a := x)) _).retire
  | rnd x nn =>
    cases h
    exact ((Framed.refl.setDraws (List.mem_singleton_self _) _).setV (List.mem_singleton_self x) _).retire
  | ldI nnn | ldFVx x => cases h; exact (Framed.refl.setI (List.mem_singleton_self _) _).retire
  | addIVx x =>
    obtain ⟨-, rfl⟩ := execAddIVx_next h
    exact ((Framed.refl.setVF (List.mem_singleton_self _) _).setI (List.mem_singleton_self _) _).retire
  | ldDtVx x => cases h; exact (Framed.refl.setDt _).retire
  | ldStVx x => cases h; exact (Framed.refl.setSt _).retire
  | skp x => cases h; exact ((Framed.refl.setKey (List.mem_singleton_self _) _).skipIf _).retire
  | ldVxK x =>
    obtain ⟨-, rfl⟩ | ⟨k, -, rfl⟩ := execLdVxK_next h
    · exact .refl
    · exact ((Framed.refl.setKey (List.mem_singleton_self _) _).setV (List.mem_singleton_self x) _).retire
  | drw x y n =>
    obtain ⟨r, -, rfl⟩ := answerOf_map_next h
    exact ((Framed.refl.setPix (List.mem_singleton_self _) _).setVF (List.mem_singleton_self _) _).retire
  | ldBVx x | ldMemVx x =>
    obtain ⟨u, hu, rfl⟩ := answerOf_map_next h
    rw [writeBytes_ok hu]
    exact (Framed.refl.setMem (List.mem_singleton_self _) _).retire
  | ldVxMem x =>
    obtain ⟨bs, hbs, rfl⟩ := answerOf_map_next h
    have hlen : bs.length = x.val + 1 := by rw [(readBytes_ok hbs).1]; simp
    exact (Framed.refl.setVs fun r hr => (mem_writtenRegs_ldVxMem x r).mpr (hlen ▸ hr)).retire

/-- An instruction that is not said to write memory stores no byte. -/
theorem storedBytes_eq_zero {i : Instr} (h : .memory ∉ writtenElems i) : storedBytes i = 0 := by
  cases i with
  | ldBVx x | ldMemVx x => exact absurd (List.mem_singleton_self _) h
  | _ => rfl

/-- All an instruction that completes can do to memory: it stores `storedBytes` bytes from I on (R93). -/
theorem exec_mem {i : Instr} {s t : State} (h : exec i s = .next t) :
    ∃ bs : List Byte, bs.length = storedBytes i ∧ t.mem = placeBytes s.mem (indexAddr s 0) bs := by
  have hnone (hm : .memory ∉ writtenElems i) : ([] : List Byte).length = storedBytes i ∧ t.mem = s.mem :=
    ⟨(storedBytes_eq_zero hm).symm, (exec_framed h).cells hm⟩
  cases i with
  | ldBVx x =>
    obtain ⟨u, hu, rfl⟩ := answerOf_map_next h
    exact ⟨_, decimalDigits_length _, congrArg State.mem (writeBytes_ok hu)⟩
  | ldMemVx x =>
    obtain ⟨u, hu, rfl⟩ := answerOf_map_next h
    exact ⟨_, regsUpTo_length s x, congrArg State.mem (writeBytes_ok hu)⟩
  | _ => exact ⟨[], hnone (by simp [writtenElems])⟩

/-- Settles O15: the frame of each update, chained along each instruction, and the bytes the instruction stores. -/
theorem frameOfEveryInstruction : Obligations.FrameOfEveryInstruction := by
  intro i s t hwf h
  refine ⟨(exec_framed h).toUnchanged, fun b hb => ?_⟩
  obtain ⟨bs, hlen, hmem⟩ := exec_mem h
  rw [hmem, Memory.read_placeBytes_outside hwf _ _ (hlen ▸ hb)]

end Sys2Proof.Machine
end

section
/-! PROOFS. The invariant (spec/10_state.md R49, R50, spec/20_memory.md R81): it holds at reset, every step keeps it, and
no host operation breaks it. -/

namespace Sys2Proof.Machine

/-! ### Where the PC goes -/

/-- A skip leaves the PC or moves it 2 on, before RETIRE (R209). -/
theorem skipIf_pc_cases (c : Bool) (s : State) : (skipIf c s).pc = s.pc ∨ (skipIf c s).pc = s.pc + 2 := by
  cases c
  · exact .inl rfl
  · exact .inr rfl

/-- Every instruction of class A ends in RETIRE, from a state whose PC only a skip has moved, by 2 (R145, R209). -/
theorem exec_advance {i : Instr} {s t : State} (hc : retireClass i = .advance) (h : exec i s = .next t) :
    ∃ u, t = retire u ∧ (u.pc = s.pc ∨ isSkip i = true ∧ u.pc = s.pc + 2) := by
  cases i with
  | halt | ret | jp nnn | call nnn | jpV0 nnn | ldVxK x => cases hc
  | seImm x nn | sneImm x nn | seReg x y | sneReg x y | skp x | sknp x =>
    cases h
    exact ⟨_, rfl, (skipIf_pc_cases _ _).imp_right fun hpc => ⟨rfl, hpc⟩⟩
  | addIVx x => exact ⟨_, (execAddIVx_next h).2, .inl rfl⟩
  | drw x y n =>
    obtain ⟨r, -, rfl⟩ := answerOf_map_next h
    exact ⟨_, rfl, .inl rfl⟩
  | ldBVx x | ldMemVx x =>
    obtain ⟨u, hu, rfl⟩ := answerOf_map_next h
    exact ⟨u, rfl, .inl (by rw [writeBytes_ok hu, State.setMem_pc])⟩
  | ldVxMem x =>
    obtain ⟨bs, -, rfl⟩ := answerOf_map_next h
    exact ⟨_, rfl, .inl (by rw [State.setVs_eq])⟩
  | _ => cases h; exact ⟨_, rfl, .inl rfl⟩

theorem addrOperand_toNat_lt (nnn : BitVec 12) : (addrOperand nnn).toNat < 4096 := by
  unfold addrOperand
  have := nnn.isLt
  bv_omega

/-- R49's largest PC: JP_V0 reaches 0xFFF + 0xFF = 0x10FE (R208). -/
theorem indexedTarget_toNat_le (s : State) (nnn : BitVec 12) : (indexedTarget s nnn).toNat ≤ 0x10FE := by
  unfold indexedTarget addrOperand wideReg
  have := nnn.isLt
  have := (s.getV 0).isLt
  bv_omega

/-- From a PC that can be fetched at, every instruction leaves the PC in R49's range. -/
theorem exec_pcBounded {i : Instr} {s t : State} (hpc : s.pc.toNat < 4095) (hret : s.returnsBounded)
    (h : exec i s = .next t) : t.pcBounded := by
  have hadvance : retireClass i = .advance → t.pc.toNat ≤ 0x10FE := fun hc => by
    obtain ⟨u, rfl, hu | ⟨-, hu⟩⟩ := exec_advance hc h <;> rw [retire_pc, hu] <;> bv_omega
  unfold State.pcBounded
  cases i with
  | halt => cases h; omega
  | ret =>
    obtain ⟨r, hr, rfl⟩ := answerOf_map_next h
    obtain ⟨k, hk, hlt, rfl⟩ := popStack_ok hr
    have htop : (s.stack[k]).toNat ≤ 4096 := hret ⟨k, hlt⟩ (hk ▸ Nat.lt_succ_self k)
    exact Nat.le_trans htop (by decide)
  | jp nnn => cases h; exact Nat.le_trans (addrOperand_toNat_lt nnn).le (by decide)
  | call nnn =>
    obtain ⟨u, -, rfl⟩ := answerOf_map_next h
    exact Nat.le_trans (addrOperand_toNat_lt nnn).le (by decide)
  | jpV0 nnn => cases h; exact indexedTarget_toNat_le s nnn
  | ldVxK x =>
    obtain ⟨-, rfl⟩ | ⟨k, -, rfl⟩ := execLdVxK_next h
    · omega
    · simp only [retire_pc, State.setV_pc, State.setKey_pc]
      bv_omega
  | _ => exact hadvance rfl

/-! ### The return addresses -/

/-- The bound on the return addresses speaks of the call stack alone. -/
theorem State.returnsBounded.congr {s t : State} (h : s.returnsBounded) (hs : SameStack s t) : t.returnsBounded := by
  obtain ⟨hstack, hsp⟩ := hs
  intro j hj
  rw [hsp] at hj
  simpa only [hstack] using h j hj

/-- Pushing a word of at most 4096 keeps the return addresses bounded. -/
theorem State.returnsBounded.push {s t : State} {w : Word} (h : s.returnsBounded) (hw : w.toNat ≤ 4096)
    (ht : pushStack s w = .ok t) : t.returnsBounded := by
  obtain ⟨hlt, rfl⟩ := pushStack_ok ht
  intro j hj
  simp only [State.setStack_stack, State.setStack_sp] at hj ⊢
  by_cases hjs : s.sp.val = j.val
  · simpa [← hjs] using hw
  · rw [Vector.getElem_set_ne _ _ hjs]
    exact h j (by omega)

/-- A pop leaves fewer entries in use, each as it was. -/
theorem State.returnsBounded.pop {s : State} {r : Word × State} (h : s.returnsBounded) (hr : popStack s = .ok r) :
    r.2.returnsBounded := by
  obtain ⟨k, hk, hlt, rfl⟩ := popStack_ok hr
  intro j hj
  exact h j (Nat.lt_trans hj (hk ▸ Nat.lt_succ_self k))

/-- Only CALL and RET touch the stack, and CALL pushes an address at most 4096 (R49). -/
theorem exec_returnsBounded {i : Instr} {s t : State} (hpc : s.pc.toNat < 4095) (hret : s.returnsBounded)
    (h : exec i s = .next t) : t.returnsBounded := by
  have hsame : .stack ∉ writtenElems i → t.returnsBounded := fun he => hret.congr ((exec_framed h).stack he)
  cases i with
  | ret =>
    obtain ⟨r, hr, rfl⟩ := answerOf_map_next h
    exact (hret.pop hr).congr ⟨rfl, rfl⟩
  | call nnn =>
    obtain ⟨u, hu, rfl⟩ := answerOf_map_next h
    exact (hret.push (by bv_omega) hu).congr ⟨rfl, rfl⟩
  | _ => exact hsame (by simp [writtenElems])

/-! ### The invariant at reset and under a step -/

/-- Settles O58: reset lists no cell, starts at 0x200 and has no stack entry in use. -/
theorem invariantAtReset : Obligations.InvariantAtReset where
  memory := reset_mem_wf
  pc := by unfold State.pcBounded; decide
  returns j hj := absurd hj (Nat.not_lt_zero _)

/-- An instruction that stores keeps the canonical form of memory. -/
theorem exec_wf {i : Instr} {s t : State} (hwf : Memory.wf s.mem = true) (h : exec i s = .next t) :
    Memory.wf t.mem = true := by
  obtain ⟨bs, -, hmem⟩ := exec_mem h
  rw [hmem]
  exact Memory.wf_placeBytes hwf _ bs

/-- Settles O59: a step that answers a next state executes an instruction fetched below 4095, and each part of the
invariant is kept by every such instruction. -/
theorem invariantKeptByStep : Obligations.InvariantKeptByStep := by
  intro s t hinv h
  obtain ⟨w, i, -, hpc, -, -, hexec⟩ := step_next h
  exact ⟨exec_wf hinv.memory hexec, exec_pcBounded hpc hinv.returns hexec, exec_returnsBounded hpc hinv.returns hexec⟩

/-! ### The host's ports -/

/-- What holds of a block at any time: canonical memory, and the whole invariant while FAULT is None. -/
structure State.InvUnlessFaulted (s : State) : Prop where
  memory : Memory.wf s.mem = true
  inv : s.fault = none → s.Inv

namespace State.InvUnlessFaulted

variable {s : State}

/-- It speaks of memory, the PC, the call stack and FAULT, so an update of other elements keeps it. -/
theorem congr {t : State} (h : s.InvUnlessFaulted) (hmem : t.mem = s.mem) (hpc : t.pc = s.pc) (hs : SameStack s t)
    (hf : t.fault = s.fault) : t.InvUnlessFaulted where
  memory := hmem ▸ h.memory
  inv hn :=
    have hinv := h.inv (hf ▸ hn)
    { memory := hmem ▸ h.memory
      pc := show t.pc.toNat ≤ _ from hpc ▸ hinv.pc
      returns := hinv.returns.congr hs }

theorem setMem (h : s.InvUnlessFaulted) {m : Memory} (hm : Memory.wf m = true) : (s.setMem m).InvUnlessFaulted where
  memory := hm
  inv hn :=
    have hinv := h.inv hn
    { memory := hm, pc := hinv.pc, returns := hinv.returns.congr ⟨rfl, rfl⟩ }

/-- A fault leaves a canonical memory, and FAULT is set. -/
theorem faulted (f : Fault) (u : State) : (State.faulted f u).InvUnlessFaulted where
  memory := State.wf_faulted f u
  inv hn := nomatch hn

theorem setKey (h : s.InvUnlessFaulted) (k : Option Key) : (s.setKey k).InvUnlessFaulted :=
  h.congr rfl rfl ⟨rfl, rfl⟩ rfl

theorem setPix (h : s.InvUnlessFaulted) (p : Display) : (s.setPix p).InvUnlessFaulted := h.congr rfl rfl ⟨rfl, rfl⟩ rfl

theorem setVs (h : s.InvUnlessFaulted) (k : Nat) (bs : List Byte) : (s.setVs k bs).InvUnlessFaulted := by
  rw [State.setVs_eq]
  exact h.congr rfl rfl ⟨rfl, rfl⟩ rfl

theorem populateRegisters (h : s.InvUnlessFaulted) (u : State) (values : List Byte) :
    (populateRegisters u values s).2.InvUnlessFaulted := by
  unfold Machine.populateRegisters
  split
  · exact h.setVs 0 values
  · exact faulted _ u

theorem loadProgram (h : s.InvUnlessFaulted) (bytes : List Byte) : (loadProgram bytes s).2.InvUnlessFaulted := by
  unfold Machine.loadProgram
  split
  · exact h.setMem (Memory.wf_placeBytes h.memory _ bytes)
  · exact h

theorem pressKey (h : s.InvUnlessFaulted) (k : Nat) : (pressKey k s).2.InvUnlessFaulted := by
  unfold Machine.pressKey
  split
  · exact h.setKey _
  · exact h

/-- The host's step: a next state comes of an unfaulted one, a first fault leaves a faulted state, a later one changes
nothing (R141). -/
theorem stepPort (h : s.InvUnlessFaulted) (u : State) : (stepPort u s).InvUnlessFaulted := by
  unfold Machine.stepPort
  split
  · rename_i t hstep
    obtain ⟨-, -, hfault, -⟩ := step_next hstep
    have hinv : t.Inv := invariantKeptByStep s t (h.inv hfault) hstep
    exact ⟨hinv.memory, fun _ => hinv⟩
  · split
    · exact h
    · exact faulted _ u
  · exact h

theorem hostPort (h : s.InvUnlessFaulted) (u : State) (op : PortOp) : (hostPort u op s).2.InvUnlessFaulted := by
  cases op with
  | newMachine => exact ⟨reset_mem_wf, fun _ => invariantAtReset⟩
  | step => exact h.stepPort u
  | loadProgram bytes => simpa only [Machine.hostPort] using h.loadProgram bytes
  | populateRegisters values => exact h.populateRegisters u values
  | press k => exact h.pressKey k
  | take => exact h.setKey none
  | clear => exact h.setPix clearedDisplay
  | _ => exact h

end State.InvUnlessFaulted

/-- Settles O60, by induction on the host's operations. -/
theorem invariantWhileNotFaulted : Obligations.InvariantWhileNotFaulted := by
  intro s hs
  have hinv : s.InvUnlessFaulted := by
    induction hs with
    | reset => exact ⟨reset_mem_wf, fun _ => invariantAtReset⟩
    | host u op _ ih => exact ih.hostPort u op
  exact ⟨hinv.memory, hinv.inv⟩

end Sys2Proof.Machine
end

section
/-! PROOFS. What no instruction reads (spec/10_state.md R50, R53): two states that differ in the hidden part alone give
answers that differ in it alone. -/

namespace Sys2Proof.Machine

/-- A part of the state that no instruction reads. -/
inductive Hidden where
  /-- The sound timer ST (R53). -/
  | soundTimer
  /-- The stack entries at SP and above (R50). -/
  | staleStack

/-- Two states that agree on everything but the hidden part `d`. -/
structure Alike (d : Hidden) (s s' : State) : Prop where
  v : s'.v = s.v
  i : s'.i = s.i
  pc : s'.pc = s.pc
  stack : ∀ j (hj : j < 16), (d = .staleStack → j < s.sp.val) → s'.stack[j] = s.stack[j]
  sp : s'.sp = s.sp
  dt : s'.dt = s.dt
  st : d ≠ .soundTimer → s'.st = s.st
  mem : s'.mem = s.mem
  pix : s'.pix = s.pix
  key : s'.key = s.key
  fault : s'.fault = s.fault
  draws : s'.draws = s.draws

/-- Two answers that differ in the hidden part at most: the same fault, or next states alike. -/
inductive AnswerAlike (d : Hidden) : Answer → Answer → Prop where
  | next {t t' : State} (h : Alike d t t') : AnswerAlike d (.next t) (.next t')
  | fault (f : Fault) : AnswerAlike d (.fault f) (.fault f)

/-! ### The memory interface looks at memory alone -/

section
variable {s s' : State} (hmem : s'.mem = s.mem)
include hmem

theorem memRead_congr (a : Nat) : memRead s' a = memRead s a := by
  simp only [memRead, hmem]

theorem readBytes_congr (a k : Nat) : readBytes s' a k = readBytes s a k := by
  induction k generalizing a with
  | zero => rfl
  | succ k ih => simp only [readBytes, memRead_congr hmem, ih]

theorem drawRows_congr (x a y k : Nat) (pc : Display × Bool) : drawRows s' x a y k pc = drawRows s x a y k pc := by
  induction k generalizing a y pc with
  | zero => rfl
  | succ k ih => simp only [drawRows, memRead_congr hmem, ih]

end

/-! ### The state's updates keep states alike -/

namespace Alike

variable {d : Hidden} {s s' : State}

theorem getV (h : Alike d s s') (r : Reg) : s'.getV r = s.getV r := State.getV_congr h.v r

theorem wideReg (h : Alike d s s') (r : Reg) : wideReg s' r = wideReg s r := by
  simp only [Machine.wideReg, h.getV]

theorem regsUpTo (h : Alike d s s') (x : Reg) : regsUpTo s' x = regsUpTo s x := by
  simp only [Machine.regsUpTo, h.v]

theorem setV (h : Alike d s s') (r : Reg) {b b' : Byte} (hb : b' = b) : Alike d (s.setV r b) (s'.setV r b') :=
  { h with v := by rw [State.setV_v, State.setV_v, h.v, hb] }

theorem setVF (h : Alike d s s') {b b' : Byte} (hb : b' = b) : Alike d (s.setVF b) (s'.setVF b') := h.setV _ hb

theorem setVs (h : Alike d s s') (k : Nat) (bs : List Byte) : Alike d (s.setVs k bs) (s'.setVs k bs) := by
  induction bs generalizing k s s' with
  | nil => exact h
  | cons b bs ih =>
    simp only [State.setVs]
    split
    · exact ih (h.setV _ rfl) _
    · exact h

theorem setI (h : Alike d s s') {w w' : Word} (hw : w' = w) :
    Alike d (s.setI w) (s'.setI w') := { h with i := hw }

theorem setPc (h : Alike d s s') {w w' : Word} (hw : w' = w) :
    Alike d (s.setPc w) (s'.setPc w') := { h with pc := hw }

theorem setDt (h : Alike d s s') {b b' : Byte} (hb : b' = b) :
    Alike d (s.setDt b) (s'.setDt b') := { h with dt := hb }

theorem setSt (h : Alike d s s') {b b' : Byte} (hb : b' = b) :
    Alike d (s.setSt b) (s'.setSt b') := { h with st := fun _ => hb }

theorem setKey (h : Alike d s s') (k : Option Key) : Alike d (s.setKey k) (s'.setKey k) := { h with key := rfl }

theorem setPix (h : Alike d s s') (p : Display) : Alike d (s.setPix p) (s'.setPix p) := { h with pix := rfl }

theorem setMem (h : Alike d s s') (m : Memory) : Alike d (s.setMem m) (s'.setMem m) := { h with mem := rfl }

theorem setDraws (h : Alike d s s') (n : Nat) : Alike d (s.setDraws n) (s'.setDraws n) := { h with draws := rfl }

theorem retire (h : Alike d s s') : Alike d (retire s) (retire s') :=
  { h with
    pc := congrArg (· + 2) h.pc
    dt := congrArg countDown h.dt
    st := fun hd => congrArg countDown (h.st hd) }

theorem skipIf (h : Alike d s s') {c c' : Bool} (hc : c' = c) : Alike d (skipIf c s) (skipIf c' s') := by
  subst hc
  cases c'
  · exact h
  · exact h.setPc (congrArg (· + 2) h.pc)

/-! ### Effects that may fault -/

/-- The same effects followed by alike states give alike answers. -/
theorem answerOf_map {α : Type} {f f' : α → State} (e : Except Fault α) (h : ∀ a, Alike d (f a) (f' a)) :
    AnswerAlike d (answerOf (e.map f)) (answerOf (e.map f')) := by
  cases e with
  | error x => exact .fault x
  | ok a => exact .next (h a)

/-- A run of byte writes looks at no more of the state than memory. -/
theorem answerOf_writeBytes (h : Alike d s s') (a : Nat) {bs : List Byte} (hbs : 0 < bs.length) :
    AnswerAlike d (answerOf ((writeBytes s a bs).map Machine.retire))
      (answerOf ((writeBytes s' a bs).map Machine.retire)) := by
  by_cases hf : a + bs.length ≤ 4096
  · rw [writeBytes_fits s a bs hf, writeBytes_fits s' a bs hf, h.mem]
    exact .next (h.setMem _).retire
  · rw [writeBytes_overruns s a bs hbs (by omega), writeBytes_overruns s' a bs hbs (by omega)]
    exact .fault _

/-- RET reads the last entry in use, which alike states share. -/
theorem execRet (h : Alike d s s') : AnswerAlike d (execRet s) (execRet s') := by
  unfold Machine.execRet
  by_cases hsp : s.sp.val = 0
  · rw [popStack_empty s hsp, popStack_empty s' (h.sp ▸ hsp), h.pc]
    exact .fault _
  · obtain ⟨k, hk⟩ := Nat.exists_eq_succ_of_ne_zero hsp
    have hlt : k < 16 := by have := s.sp.isLt; omega
    rw [popStack_of_succ s hlt hk, popStack_of_succ s' hlt (h.sp ▸ hk), h.stack k hlt fun _ => by omega]
    exact .next { h with
      pc := rfl
      sp := rfl
      stack := fun j hj hd => h.stack j hj fun e => Nat.lt_trans (hd e) (hk ▸ Nat.lt_succ_self k) }

/-- CALL writes the entry at SP, which is in use afterwards and the same in both. -/
theorem execCall (h : Alike d s s') (nnn : BitVec 12) : AnswerAlike d (execCall nnn s) (execCall nnn s') := by
  unfold Machine.execCall
  have hspv : s'.sp.val = s.sp.val := congrArg Fin.val h.sp
  by_cases hsp : s.sp.val < 16
  · rw [pushStack_of_lt s _ hsp, pushStack_of_lt s' _ (hspv ▸ hsp), h.pc]
    exact .next { h with
      pc := rfl
      sp := Fin.ext (congrArg (· + 1) hspv)
      stack := fun j hj hd => by
        simp only [retireJump_eq, State.setPc_stack, State.setStack_stack, Vector.getElem_set, hspv]
        split
        · rfl
        · rename_i hne
          exact h.stack j hj fun e => Nat.lt_of_le_of_ne (Nat.le_of_lt_succ (hd e)) (Ne.symm hne) }
  · have hfull : s.sp.val = 16 := by have := s.sp.isLt; omega
    rw [pushStack_full s _ hfull, pushStack_full s' _ (hspv ▸ hfull), h.pc]
    exact .fault _

/-! ### Every instruction -/

/-- ADD_I_VX faults in both with the same sum, or in neither. -/
theorem execAddIVx (h : Alike d s s') (x : Reg) : AnswerAlike d (execAddIVx x s) (execAddIVx x s') := by
  simp only [Machine.execAddIVx, h.i, h.getV, h.wideReg]
  split
  · exact .fault _
  · exact .next ((h.setVF rfl).setI rfl).retire

/-- LD_VX_K takes the same key in both, or waits in both. -/
theorem execLdVxK (h : Alike d s s') (x : Reg) : AnswerAlike d (execLdVxK x s) (execLdVxK x s') := by
  simp only [Machine.execLdVxK, takeKey, h.key]
  split
  · exact .next ((h.setKey none).setV x rfl).retire
  · exact .next h

/-- No instruction reads the hidden part. -/
theorem exec (h : Alike d s s') (i : Instr) : AnswerAlike d (exec i s) (exec i s') := by
  cases i with
  | halt => exact .next h
  | cls => exact .next (h.setPix _).retire
  | ret => exact h.execRet
  | call nnn => exact h.execCall nnn
  | jp nnn => exact .next (h.setPc rfl)
  | jpV0 nnn => exact .next (h.setPc (by simp only [indexedTarget, h.wideReg]))
  | seImm x nn | sneImm x nn | seReg x y | sneReg x y =>
    exact .next (h.skipIf (by simp only [h.getV])).retire
  | skp x => exact .next ((h.setKey none).skipIf (by simp only [takeKey, h.key, h.getV])).retire
  | sknp x => exact .next (h.skipIf (by simp only [wasPressed, h.key, h.getV])).retire
  | ldImm x nn => exact .next (h.setV x rfl).retire
  | addImm x nn | ldReg x y | orReg x y | andReg x y | xorReg x y =>
    exact .next (h.setV x (by simp only [h.getV])).retire
  | addReg x y | sub x y | subn x y =>
    exact .next ((h.setV x (by simp only [h.getV])).setVF (by simp only [h.getV])).retire
  | shr x y | shl x y => exact .next ((h.setVF (by simp only [h.getV])).setV x (by simp only [h.getV])).retire
  | rnd x nn =>
    simp only [Machine.exec, execRnd, drawRandomByte, h.draws]
    exact .next ((h.setDraws _).setV x rfl).retire
  | ldI nnn => exact .next (h.setI rfl).retire
  | ldFVx x => exact .next (h.setI (by simp only [h.wideReg])).retire
  | addIVx x => exact h.execAddIVx x
  | ldVxDt x => exact .next (h.setV x h.dt).retire
  | ldDtVx x => exact .next (h.setDt (h.getV x)).retire
  | ldStVx x => exact .next (h.setSt (h.getV x)).retire
  | ldVxK x => exact h.execLdVxK x
  | ldBVx x =>
    simp only [Machine.exec, execLdBVx, indexAddr, h.i, h.getV]
    exact h.answerOf_writeBytes _ (Nat.succ_pos 2)
  | ldMemVx x =>
    simp only [Machine.exec, execLdMemVx, indexAddr, h.i, h.regsUpTo]
    exact h.answerOf_writeBytes _ (by rw [regsUpTo_length]; exact Nat.succ_pos _)
  | ldVxMem x =>
    simp only [Machine.exec, execLdVxMem, indexAddr, h.i, readBytes_congr h.mem]
    exact answerOf_map _ fun bs => (h.setVs 0 bs).retire
  | drw x y n =>
    simp only [Machine.exec, execDrw, indexAddr, h.i, h.getV, h.pix, drawRows_congr h.mem]
    exact answerOf_map _ fun r => ((h.setPix r.1).setVF rfl).retire

end Alike

/-! ### The two hidden parts -/

theorem AnswerAlike.of_next {d : Hidden} {t : State} {a : Answer} (h : AnswerAlike d (.next t) a) :
    ∃ t', a = .next t' ∧ Alike d t t' := by
  cases h with
  | next ht => exact ⟨_, rfl, ht⟩

theorem AnswerAlike.of_fault {d : Hidden} {f : Fault} {a : Answer} (h : AnswerAlike d (.fault f) a) : a = .fault f := by
  cases h
  rfl

/-- Another value of ST leaves a state alike. -/
theorem alike_setSt (s : State) (b : Byte) : Alike .soundTimer s (s.setSt b) where
  v := rfl
  i := rfl
  pc := rfl
  stack _ _ _ := rfl
  sp := rfl
  dt := rfl
  st hd := absurd rfl hd
  mem := rfl
  pix := rfl
  key := rfl
  fault := rfl
  draws := rfl

/-- Another value of an entry not in use leaves a state alike. -/
theorem alike_setStack (s : State) {k : Nat} (hk : k < 16) (w : Word) (hsp : s.sp.val ≤ k) :
    Alike .staleStack s (s.setStack (s.stack.set k w) s.sp) where
  v := rfl
  i := rfl
  pc := rfl
  stack _ hj hd := Vector.getElem_set_ne hk hj (Nat.ne_of_gt (Nat.lt_of_lt_of_le (hd rfl) hsp))
  sp := rfl
  dt := rfl
  st _ := rfl
  mem := rfl
  pix := rfl
  key := rfl
  fault := rfl
  draws := rfl

/-- States alike but for ST differ in ST alone. -/
theorem Alike.eq_setSt {s s' : State} (h : Alike .soundTimer s s') : s' = s.setSt s'.st := by
  obtain ⟨v, i, pc, stack, sp, dt, -, mem, pix, key, fault, draws⟩ := h
  have hstack : s'.stack = s.stack := Vector.ext fun j hj => stack j hj nofun
  cases s
  cases s'
  simp_all [State.setSt]

/-- States alike but for entries not in use differ in the stack alone. -/
theorem Alike.eq_withStack {s s' : State} (h : Alike .staleStack s s') : s' = { s with stack := s'.stack } := by
  obtain ⟨v, i, pc, -, sp, dt, st, mem, pix, key, fault, draws⟩ := h
  cases s
  cases s'
  simp_all

/-- Settles O56: states alike but for ST give alike answers, and such states differ in ST alone. -/
theorem soundTimerIsNeverRead : Obligations.SoundTimerIsNeverRead := by
  intro i s b
  have h := (alike_setSt s b).exec i
  refine ⟨fun t ht => ?_, fun f hf => (hf ▸ h).of_fault⟩
  obtain ⟨t', ht', hal⟩ := (ht ▸ h).of_next
  exact ⟨t'.st, ht'.trans (congrArg _ hal.eq_setSt)⟩

/-- Settles O57: states alike but for stale stack entries give alike answers, stale entries after the instruction apart. -/
theorem staleStackEntriesAreNeverRead : Obligations.StaleStackEntriesAreNeverRead := by
  intro i s k hk w hsp
  have h := (alike_setStack s hk w hsp).exec i
  refine ⟨fun t ht => ?_, fun f hf => (hf ▸ h).of_fault⟩
  obtain ⟨t', ht', hal⟩ := (ht ▸ h).of_next
  exact ⟨t', ht', hal.eq_withStack, fun j hj hjt => hal.stack j hj fun _ => hjt⟩

end Sys2Proof.Machine
end

section
/-! PROOFS. Reset and the register ports (spec/10_state.md R59 to R61). -/

namespace Sys2Proof.Machine

theorem memDefault_of_font {a : Nat} (h : a < 80) : memDefault a = Config.fontRom a := if_pos h

theorem memDefault_of_ge {a : Nat} (h : 80 ≤ a) : memDefault a = 0 := if_neg (Nat.not_lt.mpr h)

/-- Settles O16: an address that no cell lists reads as its reset contents, and reset lists none. -/
theorem resetValues : Obligations.ResetValues := by
  refine ⟨fun r => ?_, rfl, rfl, rfl, fun j => ?_, rfl, rfl, fun a ha => memDefault_of_font ha,
    fun a ha _ => memDefault_of_ge ha, fun x y _ _ => clearedDisplay_pixel x y, rfl, rfl⟩
  · simp only [State.getV, State.reset_v, Vector.getElem_replicate]
  · simp only [State.reset_stack, Vector.getElem_replicate]

/-- Settles O54: a run of register writes where the values fit, the faulted state where they do not. -/
theorem registerPorts : Obligations.RegisterPorts := by
  intro u s values
  refine ⟨fun hlen => ?_, fun hlen => ?_, fun r => ?_, fun n hn => ?_⟩
  · refine ⟨s.setVs 0 values, if_pos hlen, State.setVs_eq s 0 values, fun r => ?_⟩
    rw [State.getV_setVs, if_pos (Nat.zero_le _), Nat.sub_zero]
    split
    · rename_i h
      exact (List.getElem_eq_getD _).symm
    · rename_i h
      exact List.getD_eq_default _ _ (Nat.le_of_not_lt h)
  · have heq : populateRegisters u values s =
        (some (.registerIndexOutOfRange 16), portFaulted (.registerIndexOutOfRange 16) u s) :=
      if_neg (Nat.not_le.mpr hlen)
    rw [heq]
    refine ⟨rfl, fun hf => ?_, fun g hg => ?_, fun hwf => ?_⟩
    · simp only [portFaulted, State.faulted_fault, hf, Option.getD_none]
    · simp only [portFaulted, State.faulted_fault, hg, Option.getD_some]
    · exact State.faulted_of_wf hwf _
  · exact dif_pos r.isLt
  · exact dif_neg (Nat.not_lt.mpr hn)

end Sys2Proof.Machine
end

section
/-! PROOFS. Memory, the fetch and the program loader (spec/20_memory.md R88 to R90, R96 to R98, R101), and the step from
reset with no program loaded (spec/70_reset_and_hazards.md R354). -/

namespace Sys2Proof.Machine

/-! ### The memory interface -/

/-- All a byte write that succeeds can be: the address is below 4096 and the memory alone changes. -/
theorem memWrite_ok {s t : State} {a : Nat} {v : Byte} (h : memWrite s a v = .ok t) :
    a < 4096 ∧ t = s.setMem (Memory.write s.mem a v) := by
  by_cases ha : a < 4096
  · rw [memWrite_of_lt s ha] at h
    cases h
    exact ⟨ha, rfl⟩
  · rw [memWrite_of_ge s (Nat.le_of_not_lt ha)] at h
    cases h

/-- A byte that was written reads as written. -/
theorem read_memWrite_same {s t : State} {a : Nat} {v : Byte} (hwf : Memory.wf s.mem = true)
    (h : memWrite s a v = .ok t) : Memory.read t.mem a = v := by
  obtain ⟨-, rfl⟩ := memWrite_ok h
  exact (Memory.read_write hwf a a v).trans (if_pos rfl)

theorem memWrite_pc {s t : State} {a : Nat} {v : Byte} (h : memWrite s a v = .ok t) : t.pc = s.pc := by
  obtain ⟨-, rfl⟩ := memWrite_ok h
  rfl

/-- Settles O18: both accesses check the address first; the write below 4096 is a write of canonical memory. -/
theorem memoryInterface : Obligations.MemoryInterface := by
  intro s hwf a v
  refine ⟨fun ha => ⟨memRead_of_lt s ha, _, memWrite_of_lt s ha v, rfl, Memory.wf_write hwf ha v, fun b => ?_⟩,
    fun ha => ⟨memRead_of_ge s ha, memWrite_of_ge s ha v⟩⟩
  exact Memory.read_write hwf a b v

/-! ### The fetch -/

@[simp] theorem wordOfBytes_high (hi lo : Byte) : (wordOfBytes hi lo).extractLsb' 8 8 = hi :=
  BitVec.extractLsb'_append_eq_left

@[simp] theorem wordOfBytes_low (hi lo : Byte) : (wordOfBytes hi lo).extractLsb' 0 8 = lo :=
  BitVec.extractLsb'_append_eq_right

theorem wordOfBytes_toNat (hi lo : Byte) : (wordOfBytes hi lo).toNat = hi.toNat * 256 + lo.toNat := by
  rw [wordOfBytes, BitVec.toNat_append, ← Nat.shiftLeft_add_eq_or_of_lt lo.isLt, Nat.shiftLeft_eq]

/-- A fetch whose second byte lies at 4096 faults there. -/
theorem fetch_of_last (s : State) (h : s.pc.toNat = 4095) : fetch s = .error (.memoryOutOfRange 4096) := by
  unfold fetch
  rw [h, memRead_of_lt s (by decide), memRead_of_ge s (by decide)]

/-- A fetch whose first byte lies beyond memory faults at the PC. -/
theorem fetch_of_ge (s : State) (h : 4096 ≤ s.pc.toNat) : fetch s = .error (.memoryOutOfRange s.pc.toNat) := by
  unfold fetch
  rw [memRead_of_ge s h]

/-- All a fetched word can be: the two bytes at the PC, high byte first. -/
theorem fetch_ok {s : State} {w : Word} (h : fetch s = .ok w) :
    w = wordOfBytes (Memory.read s.mem s.pc.toNat) (Memory.read s.mem (s.pc.toNat + 1)) := by
  rw [fetch_of_lt s (fetch_ok_pc h)] at h
  exact (Except.ok.inj h).symm

/-- Settles O8: two byte reads, high byte first, the first of them that is out of range giving the fault. -/
theorem fetchIsBigEndian : Obligations.FetchIsBigEndian := by
  intro s
  refine ⟨fun h => ⟨_, fetch_of_lt s h, ?_, ?_, ?_⟩, fetch_of_last s, fetch_of_ge s⟩
  · exact wordOfBytes_high _ _
  · exact wordOfBytes_low _ _
  · exact wordOfBytes_toNat _ _

/-- Settles O20: the store leaves the PC, so the fetch reads the stored byte as one of its two. -/
theorem fetchSeesTheLastStore : Obligations.FetchSeesTheLastStore := by
  intro s t v w hwf hfetch
  have hw := fetch_ok hfetch
  refine ⟨fun hstore => ?_, fun hstore => ?_⟩
  · rw [hw, wordOfBytes_high, memWrite_pc hstore, read_memWrite_same hwf hstore]
  · rw [hw, wordOfBytes_low, memWrite_pc hstore, read_memWrite_same hwf hstore]

/-! ### The program loader -/

theorem loadProgram_of_le {bytes : List Byte} (h : bytes.length ≤ 3584) (s : State) :
    loadProgram bytes s = (true, s.setMem (placeBytes s.mem 512 bytes)) :=
  if_pos (Nat.add_le_add_right h 512)

theorem loadProgram_of_gt {bytes : List Byte} (h : 3584 < bytes.length) (s : State) : loadProgram bytes s = (false, s) :=
  if_neg (Nat.not_le.mpr (Nat.add_lt_add_right h 512))

/-- Byte `k` of a run of placed bytes that fits reads at the `k`-th address of the run. -/
theorem Memory.read_placeBytes_inside {m : Memory} (hm : Memory.wf m = true) {a : Nat} {bs : List Byte}
    (hfit : a + bs.length ≤ 4096) {k : Nat} (hk : k < bs.length) : Memory.read (placeBytes m a bs) (a + k) = bs[k] := by
  rw [Memory.read_placeBytes hm a bs hfit, if_pos (Nat.le_add_right a k), Nat.add_sub_cancel_left,
    List.getD_eq_getElem _ _ hk]

/-- Settles O19: an accepted program is a run of placed bytes from 512 on. -/
theorem loaderWritesTheProgramOnly : Obligations.LoaderWritesTheProgramOnly := by
  intro s bytes hwf
  refine ⟨fun hlen => ?_, fun hlen => loadProgram_of_gt hlen s⟩
  have hfit : 512 + bytes.length ≤ 4096 := by omega
  exact ⟨_, loadProgram_of_le hlen s, rfl, Memory.wf_placeBytes hwf 512 bytes,
    fun k hk => Memory.read_placeBytes_inside hwf hfit hk,
    fun a ha => Memory.read_placeBytes_outside hwf 512 bytes ha⟩

/-! ### The step from reset -/

/-- With no fault set, a step executes the instruction that the fetched word decodes to. -/
theorem step_of_decode {s : State} {w : Word} {i : Instr} (hfault : s.fault = none) (hfetch : fetch s = .ok w)
    (hdecode : decodeWord w = .ok i) : step s = exec i s := by
  simp only [step, hfault, hfetch, hdecode]

/-- The outcome of a step that answers a next state is that of its instruction's class. -/
theorem stepOutcome_of_next {s t : State} {w : Word} {i : Instr} (hstep : step s = .next t) (hfetch : fetch s = .ok w)
    (hdecode : decodeWord w = .ok i) : stepOutcome s = classOutcome s (retireClass i) := by
  simp only [stepOutcome, hstep, hfetch, hdecode]

theorem exec_halt (s : State) : exec .halt s = .next s := rfl

theorem decodeWord_zero : decodeWord 0x0000#16 = .ok .halt := by decide

/-- Without a program the bytes at the PC have their reset value 0 (R85). -/
theorem fetch_reset : fetch State.reset = .ok 0x0000#16 := by
  have hbyte : ∀ a, 80 ≤ a → Memory.read State.reset.mem a = 0 := fun a ha => memDefault_of_ge ha
  rw [fetch_of_lt State.reset (by decide), hbyte _ (by decide), hbyte _ (by decide)]
  rfl

/-- Settles O17: the reset state fetches the zero word, which is HALT. -/
theorem resetThenStepHalts : Obligations.ResetThenStepHalts := by
  have hstep : step State.reset = .next State.reset := by
    rw [step_of_decode rfl fetch_reset decodeWord_zero, exec_halt]
  exact ⟨hstep, stepOutcome_of_next hstep fetch_reset decodeWord_zero⟩

end Sys2Proof.Machine
end

section
/-! PROOFS. The encoding (spec/30_encoding.md R120 to R129): the word and its fields, the decoder and the encoder as each
other's inverse, the opcode table as a reading of both, and the illegal words. -/

namespace Sys2Proof

/-! ### The fields as numbers (R121) -/

theorem fieldOp_toNat (w : Word) : (fieldOp w).toNat = w.toNat / 4096 := by
  have hw := w.isLt
  simp only [fieldOp, BitVec.extractLsb'_toNat, Nat.shiftRight_eq_div_pow]
  omega

theorem fieldX_val (w : Word) : (fieldX w).val = w.toNat / 256 % 16 := by
  simp only [fieldX, BitVec.val_toFin, BitVec.extractLsb'_toNat, Nat.shiftRight_eq_div_pow]

theorem fieldY_val (w : Word) : (fieldY w).val = w.toNat / 16 % 16 := by
  simp only [fieldY, BitVec.val_toFin, BitVec.extractLsb'_toNat, Nat.shiftRight_eq_div_pow]

theorem fieldN_toNat (w : Word) : (fieldN w).toNat = w.toNat % 16 := BitVec.extractLsb'_toNat 0 4 w

theorem fieldNN_toNat (w : Word) : (fieldNN w).toNat = w.toNat % 256 := BitVec.extractLsb'_toNat 0 8 w

theorem fieldNNN_toNat (w : Word) : (fieldNNN w).toNat = w.toNat % 4096 := BitVec.extractLsb'_toNat 0 12 w

/-- Settles O1, field by field. -/
theorem fieldsOfTheWord : Obligations.FieldsOfTheWord := fun w =>
  ⟨fieldOp_toNat w, fieldX_val w, fieldY_val w, fieldN_toNat w, fieldNN_toNat w, fieldNNN_toNat w⟩

/-! ### A word is its fields, and an encoding's fields are those it was made of -/

@[simp] theorem fieldOp_encA (op : BitVec 4) (nnn : BitVec 12) : fieldOp (encA op nnn) = op :=
  BitVec.extractLsb'_append_eq_left

@[simp] theorem fieldNNN_encA (op : BitVec 4) (nnn : BitVec 12) : fieldNNN (encA op nnn) = nnn :=
  BitVec.extractLsb'_append_eq_right


@[simp] theorem regBits_toFin (r : Reg) : (regBits r).toFin = r := rfl

/-- A field below the opcode group is read from the last three nibbles. -/
theorem extractLsb'_encA {j k : Nat} (h : j + k ≤ 12) (op : BitVec 4) (nnn : BitVec 12) :
    (encA op nnn).extractLsb' j k = nnn.extractLsb' j k :=
  BitVec.extractLsb'_append_eq_of_add_le h

section
variable (op : BitVec 4) (x y : Reg) (nn : Byte) (n : BitVec 4)

@[simp] theorem fieldOp_encXK : fieldOp (encXK op x nn) = op := fieldOp_encA op (regBits x ++ nn)

@[simp] theorem fieldX_encXK : fieldX (encXK op x nn) = x := by
  have h : (encXK op x nn).extractLsb' 8 4 = regBits x :=
    (extractLsb'_encA (by decide) op (regBits x ++ nn)).trans BitVec.extractLsb'_append_eq_left
  rw [fieldX, h, regBits_toFin]

@[simp] theorem fieldNN_encXK : fieldNN (encXK op x nn) = nn :=
  (extractLsb'_encA (by decide) op (regBits x ++ nn)).trans BitVec.extractLsb'_append_eq_right

@[simp] theorem fieldOp_encXYN : fieldOp (encXYN op x y n) = op := fieldOp_encXK op x (regBits y ++ n)

@[simp] theorem fieldX_encXYN : fieldX (encXYN op x y n) = x := fieldX_encXK op x (regBits y ++ n)

/-- The second byte of a form XYN holds y above n. -/
theorem fieldNN_encXYN : fieldNN (encXYN op x y n) = regBits y ++ n := fieldNN_encXK op x (regBits y ++ n)

@[simp] theorem fieldY_encXYN : fieldY (encXYN op x y n) = y := by
  have h : (encXYN op x y n).extractLsb' 4 4 = regBits y :=
    (extractLsb'_encA (by decide) op (regBits x ++ (regBits y ++ n))).trans <|
      (BitVec.extractLsb'_append_eq_of_add_le (by decide)).trans BitVec.extractLsb'_append_eq_left
  rw [fieldY, h, regBits_toFin]

@[simp] theorem fieldN_encXYN : fieldN (encXYN op x y n) = n :=
  (extractLsb'_encA (by decide) op (regBits x ++ (regBits y ++ n))).trans <|
    (BitVec.extractLsb'_append_eq_of_add_le (by decide)).trans BitVec.extractLsb'_append_eq_right

end

theorem encA_fields (w : Word) : encA (fieldOp w) (fieldNNN w) = w :=
  (BitVec.extractLsb'_append_extractLsb'_eq_extractLsb' rfl).trans BitVec.extractLsb'_eq_self

theorem encXK_fields (w : Word) : encXK (fieldOp w) (fieldX w) (fieldNN w) = w := by
  have h : regBits (fieldX w) ++ fieldNN w = fieldNNN w := BitVec.extractLsb'_append_extractLsb'_eq_extractLsb' rfl
  rw [encXK, h]
  exact encA_fields w

theorem encXYN_fields (w : Word) : encXYN (fieldOp w) (fieldX w) (fieldY w) (fieldN w) = w := by
  have h : regBits (fieldY w) ++ fieldN w = fieldNN w := BitVec.extractLsb'_append_extractLsb'_eq_extractLsb' rfl
  rw [encXYN, h]
  exact encXK_fields w

/-! ### The decoder and the encoder are each other's inverse -/

theorem decodeWord_of_some {w : Word} {i : Instr} (h : decodeTable w = some i) : decodeWord w = .ok i := by
  rw [decodeWord, h]

theorem decodeWord_of_none {w : Word} (h : decodeTable w = none) : decodeWord w = .error (.unrecognizedOpcode w) := by
  rw [decodeWord, h]

theorem decodeWord_ok_iff {w : Word} {i : Instr} : decodeWord w = .ok i ↔ decodeTable w = some i := by
  refine ⟨fun h => ?_, decodeWord_of_some⟩
  cases hd : decodeTable w with
  | some j => rw [decodeWord_of_some hd] at h; rw [Except.ok.inj h]
  | none => rw [decodeWord_of_none hd] at h; cases h

/-- Every well-formed instruction is what the dispatch table reads from its word. -/
theorem decodeTable_encode {i : Instr} (h : i.wf = true) : decodeTable (encode i) = some i := by
  cases i with
  | halt | cls | ret => rfl
  | jp nnn | call nnn | ldI nnn | jpV0 nnn => simp only [decodeTable, encode, fieldOp_encA, fieldNNN_encA]
  | seImm x nn | sneImm x nn | ldImm x nn | addImm x nn | rnd x nn =>
    simp only [decodeTable, encode, fieldOp_encXK, fieldX_encXK, fieldNN_encXK]
  | seReg x y | sneReg x y =>
    simp only [decodeTable, encode, decodeIfN0, fieldOp_encXYN, fieldX_encXYN, fieldY_encXYN, fieldN_encXYN]
  | ldReg x y | orReg x y | andReg x y | xorReg x y | addReg x y | sub x y | shr x y | subn x y | shl x y =>
    simp only [decodeTable, encode, decodeGroup8, fieldOp_encXYN, fieldX_encXYN, fieldY_encXYN, fieldN_encXYN]
  | drw x y n =>
    have hn : n < 16 := of_decide_eq_true h
    simp only [decodeTable, encode, fieldOp_encXYN, fieldX_encXYN, fieldY_encXYN, fieldN_encXYN,
      BitVec.toNat_ofNat, Nat.mod_eq_of_lt hn]
  | skp x | sknp x => simp only [decodeTable, encode, decodeGroupE, fieldOp_encXK, fieldX_encXK, fieldNN_encXK]
  | ldVxDt x | ldVxK x | ldDtVx x | ldStVx x | addIVx x | ldFVx x | ldBVx x | ldMemVx x | ldVxMem x =>
    simp only [decodeTable, encode, decodeGroupF, fieldOp_encXK, fieldX_encXK, fieldNN_encXK]

/-- The two bytes of an instruction make up its word (R91). -/
theorem wordOfBytes_halves (w : Word) : wordOfBytes (w.extractLsb' 8 8) (w.extractLsb' 0 8) = w :=
  (BitVec.extractLsb'_append_extractLsb'_eq_extractLsb' rfl).trans BitVec.extractLsb'_eq_self

/-- Settles O5: the fields of an encoding are the operands it was made of, so that the dispatch table finds them again. -/
theorem decodeEncodeAgree : Obligations.DecodeEncodeAgree := by
  intro i hi
  have hword : decodeWord (encode i) = .ok i := decodeWord_of_some (decodeTable_encode hi)
  refine ⟨hword, fun rest => ?_⟩
  simp only [encodeBytes, List.cons_append, List.nil_append, decodeBytes, wordOfBytes_halves, hword]


section
variable {w : Word} {i : Instr} {op : BitVec 4} {nn : Byte} {n : BitVec 4} {nnn : BitVec 12}

theorem encA_of_fields (hop : fieldOp w = op) (hnnn : fieldNNN w = nnn) : encA op nnn = w := by
  rw [← hop, ← hnnn, encA_fields]

theorem encXK_of_fields (hop : fieldOp w = op) (hnn : fieldNN w = nn) : encXK op (fieldX w) nn = w := by
  rw [← hop, ← hnn, encXK_fields]

theorem encXYN_of_fields (hop : fieldOp w = op) (hn : fieldN w = n) : encXYN op (fieldX w) (fieldY w) n = w := by
  rw [← hop, ← hn, encXYN_fields]

/-- What a group's own table reads stands for the word: its fixed bits are the ones matched, its operands the fields. -/
theorem encode_of_decodeGroup0 (hop : fieldOp w = 0x0#4) (h : decodeGroup0 w = some i) : encode i = w ∧ i.wf = true := by
  unfold decodeGroup0 at h
  split at h <;> cases h
  all_goals
    rename_i hnnn
    exact ⟨encA_of_fields hop hnnn, rfl⟩

theorem encode_of_decodeGroup8 (hop : fieldOp w = 0x8#4) (h : decodeGroup8 w = some i) : encode i = w ∧ i.wf = true := by
  unfold decodeGroup8 at h
  split at h <;> cases h
  all_goals
    rename_i hn
    exact ⟨encXYN_of_fields hop hn, rfl⟩

theorem encode_of_decodeGroupE (hop : fieldOp w = 0xE#4) (h : decodeGroupE w = some i) : encode i = w ∧ i.wf = true := by
  unfold decodeGroupE at h
  split at h <;> cases h
  all_goals
    rename_i hnn
    exact ⟨encXK_of_fields hop hnn, rfl⟩

theorem encode_of_decodeGroupF (hop : fieldOp w = 0xF#4) (h : decodeGroupF w = some i) : encode i = w ∧ i.wf = true := by
  unfold decodeGroupF at h
  split at h <;> cases h
  all_goals
    rename_i hnn
    exact ⟨encXK_of_fields hop hnn, rfl⟩

/-- Groups 5 and 9 read the instruction they are given, and only where n is 0. -/
theorem decodeIfN0_some {j : Instr} (h : decodeIfN0 w j = some i) : fieldN w = 0x0#4 ∧ j = i := by
  unfold decodeIfN0 at h
  split at h
  · rename_i hn
    exact ⟨hn, Option.some.inj h⟩
  · cases h

/-- What the dispatch table reads is a well-formed instruction of that very word, whatever the opcode group. -/
theorem encode_of_decodeTable (h : decodeTable w = some i) : encode i = w ∧ i.wf = true := by
  unfold decodeTable at h
  split at h
  next hop => exact encode_of_decodeGroup0 hop h
  next hop => cases h; exact ⟨encA_of_fields hop rfl, rfl⟩
  next hop => cases h; exact ⟨encA_of_fields hop rfl, rfl⟩
  next hop => cases h; exact ⟨encXK_of_fields hop rfl, rfl⟩
  next hop => cases h; exact ⟨encXK_of_fields hop rfl, rfl⟩
  next hop => obtain ⟨hn, rfl⟩ := decodeIfN0_some h; exact ⟨encXYN_of_fields hop hn, rfl⟩
  next hop => cases h; exact ⟨encXK_of_fields hop rfl, rfl⟩
  next hop => cases h; exact ⟨encXK_of_fields hop rfl, rfl⟩
  next hop => exact encode_of_decodeGroup8 hop h
  next hop => obtain ⟨hn, rfl⟩ := decodeIfN0_some h; exact ⟨encXYN_of_fields hop hn, rfl⟩
  next hop => cases h; exact ⟨encA_of_fields hop rfl, rfl⟩
  next hop => cases h; exact ⟨encA_of_fields hop rfl, rfl⟩
  next hop => cases h; exact ⟨encXK_of_fields hop rfl, rfl⟩
  next hop =>
    cases h
    have hn : fieldN w = BitVec.ofNat 4 (fieldN w).toNat := by rw [BitVec.ofNat_toNat, BitVec.setWidth_eq]
    exact ⟨encXYN_of_fields hop hn, decide_eq_true (fieldN w).isLt⟩
  next hop => exact encode_of_decodeGroupE hop h
  next hop => exact encode_of_decodeGroupF hop h
  next => cases h

end

/-- Settles O6: no field of the word is lost in what it decodes to. -/
theorem encodeDecodeAgree : Obligations.EncodeDecodeAgree := fun _ _ h =>
  encode_of_decodeTable (decodeWord_ok_iff.mp h)

/-! ### The opcode table (R124, R125) -/

/-- An instruction's word matches its row. -/
theorem rowOf_matches_encode (i : Instr) : (rowOf i).matches (encode i) = true := by
  have h : Laws.TableRow.Statement i := by
    cases i with
    | halt | cls | ret => rfl
    | jp nnn | call nnn | ldI nnn | jpV0 nnn => exact Laws.encA_masked _ nnn
    | seImm x nn | sneImm x nn | ldImm x nn | addImm x nn | rnd x nn => exact Laws.encXK_group_masked _ x nn
    | drw x y n => exact Laws.TableRow.drw x y n
    | seReg x y | sneReg x y | ldReg x y | orReg x y | andReg x y | xorReg x y | addReg x y | sub x y | shr x y | subn x y
    | shl x y => exact Laws.encXYN_masked _ x y _
    | skp x | sknp x | ldVxDt x | ldVxK x | ldDtVx x | ldStVx x | addIVx x | ldFVx x | ldBVx x | ldMemVx x | ldVxMem x =>
      exact Laws.encXK_masked _ x _
  exact beq_iff_eq.mpr h

/-- The table's rows are exactly those of the instructions. -/
theorem mem_opcodeTable_iff {r : OpcodeRow} : r ∈ opcodeTable ↔ ∃ i, rowOf i = r := by
  constructor
  · intro h
    rw [opcodeTable, ← List.map_append, ← List.map_append] at h
    obtain ⟨i, -, hi⟩ := List.mem_map.mp h
    exact ⟨i, hi⟩
  · rintro ⟨i, rfl⟩
    cases i <;> simp only [rowOf] <;> decide

theorem masked_group (w : Word) : w &&& 0xF000#16 = encA (fieldOp w) 0 := by
  simpa only [encA_fields] using Laws.encA_masked (fieldOp w) (fieldNNN w)

theorem masked_group_n (w : Word) : w &&& 0xF00F#16 = encXYN (fieldOp w) 0 0 (fieldN w) := by
  simpa only [encXYN_fields] using Laws.encXYN_masked (fieldOp w) (fieldX w) (fieldY w) (fieldN w)

theorem masked_group_nn (w : Word) : w &&& 0xF0FF#16 = encXK (fieldOp w) 0 (fieldNN w) := by
  simpa only [encXK_fields] using Laws.encXK_masked (fieldOp w) (fieldX w) (fieldNN w)

section
variable {w u : Word}

theorem fieldOp_of_masked (h : w &&& 0xF000#16 = u &&& 0xF000#16) : fieldOp w = fieldOp u := by
  have := congrArg fieldOp h
  rwa [masked_group, masked_group, fieldOp_encA, fieldOp_encA] at this

theorem fields_of_masked_n (h : w &&& 0xF00F#16 = u &&& 0xF00F#16) : fieldOp w = fieldOp u ∧ fieldN w = fieldN u := by
  rw [masked_group_n, masked_group_n] at h
  exact ⟨by simpa only [fieldOp_encXYN] using congrArg fieldOp h,
    by simpa only [fieldN_encXYN] using congrArg fieldN h⟩

theorem fields_of_masked_nn (h : w &&& 0xF0FF#16 = u &&& 0xF0FF#16) :
    fieldOp w = fieldOp u ∧ fieldNN w = fieldNN u := by
  rw [masked_group_nn, masked_group_nn] at h
  exact ⟨by simpa only [fieldOp_encXK] using congrArg fieldOp h,
    by simpa only [fieldNN_encXK] using congrArg fieldNN h⟩

end

/-- A word that agrees with an instruction's word under the mask of its row decodes to an instruction of that row: the
fields under the mask are all the dispatch table looks at. -/
theorem decodeTable_of_matches {w : Word} {i : Instr} (h : (rowOf i).matches w = true) :
    (decodeTable w).map rowOf = some (rowOf i) := by
  have hmask : w &&& (rowOf i).mask = encode i &&& (rowOf i).mask :=
    (beq_iff_eq.mp h).trans (beq_iff_eq.mp (rowOf_matches_encode i)).symm
  cases i with
  | halt | cls | ret =>
    obtain rfl := BitVec.and_allOnes.symm.trans hmask
    rfl
  | jp nnn | call nnn | ldI nnn | jpV0 nnn =>
    rw [decodeTable, (fieldOp_of_masked hmask).trans (fieldOp_encA _ nnn)]
    rfl
  | seImm x nn | sneImm x nn | ldImm x nn | addImm x nn | rnd x nn =>
    rw [decodeTable, (fieldOp_of_masked hmask).trans (fieldOp_encXK _ x nn)]
    rfl
  | drw x y n =>
    rw [decodeTable, (fieldOp_of_masked hmask).trans (fieldOp_encXYN _ x y _)]
    rfl
  | seReg x y | sneReg x y | ldReg x y | orReg x y | andReg x y | xorReg x y | addReg x y | sub x y | shr x y | subn x y
  | shl x y =>
    obtain ⟨hop, hn⟩ := fields_of_masked_n hmask
    simp only [encode, fieldOp_encXYN, fieldN_encXYN] at hop hn
    simp only [decodeTable, decodeIfN0, decodeGroup8, hop, hn]
    rfl
  | skp x | sknp x | ldVxDt x | ldVxK x | ldDtVx x | ldStVx x | addIVx x | ldFVx x | ldBVx x | ldMemVx x | ldVxMem x =>
    obtain ⟨hop, hnn⟩ := fields_of_masked_nn hmask
    simp only [encode, fieldOp_encXK, fieldNN_encXK] at hop hnn
    simp only [decodeTable, decodeGroupE, decodeGroupF, hop, hnn]
    rfl

/-- Settles O2: what a word decodes to encodes to the word, which therefore matches its row; and the bits a row fixes are
those the dispatch table looks at. -/
theorem decodeFollowsMatchAndMask : Obligations.DecodeFollowsMatchAndMask := by
  refine ⟨rfl, fun w i h => ⟨?_, mem_opcodeTable_iff.mpr ⟨i, rfl⟩⟩, fun w r hr h => ?_⟩
  · obtain ⟨rfl, -⟩ := encodeDecodeAgree w i h
    exact rowOf_matches_encode i
  · obtain ⟨i, rfl⟩ := mem_opcodeTable_iff.mp hr
    obtain ⟨j, hj, hrow⟩ := Option.map_eq_some_iff.mp (decodeTable_of_matches h)
    exact ⟨j, decodeWord_of_some hj, hrow⟩

/-- Settles O3: a word that matches a row decodes to an instruction of the row, and it decodes to one instruction alone. -/
theorem patternsDisjoint : Obligations.PatternsDisjoint := by
  intro w r q hr hq hwr hwq
  obtain ⟨-, -, hdecode⟩ := decodeFollowsMatchAndMask
  obtain ⟨i, hi, rfl⟩ := hdecode w r hr hwr
  obtain ⟨j, hj, rfl⟩ := hdecode w q hq hwq
  rw [Except.ok.inj (hi.symm.trans hj)]

/-! ### The illegal words (R127) -/

/-- In group 0 the twelve free bits are the whole word, so the three legal words leave R127's three ranges. -/
theorem illegalWord_group0 {w : Word} (hop : fieldOp w = 0x0#4) : illegalWord w = (decodeGroup0 w).isNone := by
  have hw : w.toNat = (fieldNNN w).toNat := by
    have hhigh : w.toNat / 4096 = 0 := by rw [← fieldOp_toNat, hop]; rfl
    rw [fieldNNN_toNat]
    omega
  simp only [illegalWord, hop, hw]
  unfold decodeGroup0
  generalize fieldNNN w = n
  split
  · rfl
  · rfl
  · rfl
  · rename_i h0 h1 h2
    have h0 : n.toNat ≠ 0x000 := fun h => h0 (BitVec.eq_of_toNat_eq h)
    have h1 : n.toNat ≠ 0x0E0 := fun h => h1 (BitVec.eq_of_toNat_eq h)
    have h2 : n.toNat ≠ 0x0EE := fun h => h2 (BitVec.eq_of_toNat_eq h)
    have := n.isLt
    simp only [Option.isNone_none, Bool.or_eq_true, Bool.and_eq_true, decide_eq_true_eq]
    omega

theorem illegalWord_group8 {w : Word} (hop : fieldOp w = 0x8#4) : illegalWord w = (decodeGroup8 w).isNone := by
  simp only [illegalWord, hop]
  unfold decodeGroup8
  generalize fieldN w = n
  split
  case h_10 =>
    revert n
    decide
  all_goals rfl

theorem illegalWord_groupE {w : Word} (hop : fieldOp w = 0xE#4) : illegalWord w = (decodeGroupE w).isNone := by
  simp only [illegalWord, hop]
  unfold decodeGroupE
  generalize fieldNN w = nn
  split
  case h_3 => simp_all
  all_goals rfl

theorem illegalWord_groupF {w : Word} (hop : fieldOp w = 0xF#4) : illegalWord w = (decodeGroupF w).isNone := by
  simp only [illegalWord, hop]
  unfold decodeGroupF
  generalize fieldNN w = nn
  split
  case h_10 => simp_all
  all_goals rfl

theorem decodeIfN0_isNone (w : Word) (i : Instr) : (decodeIfN0 w i).isNone = (fieldN w != 0x0#4) := by
  unfold decodeIfN0
  generalize fieldN w = n
  split
  · rfl
  · rename_i h
    exact (bne_iff_ne.mpr h).symm

/-- R127's list says, group by group, which words the dispatch table has no row for. -/
theorem illegalWord_eq (w : Word) : illegalWord w = (decodeTable w).isNone := by
  unfold decodeTable
  split
  case h_1 hop => exact illegalWord_group0 hop
  case h_6 hop | h_10 hop => simp only [illegalWord, hop, decodeIfN0_isNone]
  case h_9 hop => exact illegalWord_group8 hop
  case h_15 hop => exact illegalWord_groupE hop
  case h_16 hop => exact illegalWord_groupF hop
  case h_17 =>
    exfalso
    generalize fieldOp w = op at *
    revert op
    decide
  all_goals
    rename_i hop
    simp only [illegalWord, hop]
    rfl

theorem illegalWord_true_iff {w : Word} : illegalWord w = true ↔ decodeTable w = none := by
  rw [illegalWord_eq, Option.isNone_iff_eq_none]

theorem illegalWord_false_iff {w : Word} : illegalWord w = false ↔ ∃ i, decodeTable w = some i := by
  rw [illegalWord_eq, Option.isNone_eq_false_iff, Option.isSome_iff_exists]

/-! ### Words written out -/

/-- Settles O7: the nine words, one for each family of R125. -/
theorem writtenOutWordsDecode : Obligations.WrittenOutWordsDecode := by
  unfold Obligations.WrittenOutWordsDecode
  decide

end Sys2Proof
end

section
/-! PROOFS. The step cycle (spec/30_encoding.md R127, R128, R140 to R152, spec/60_exceptions.md R320 to R322): what a step
answers, its outcome, the state the host finds after it, and the PC and the timers by class. -/

namespace Sys2Proof.Machine

/-! ### What a step answers -/

/-- With FAULT set, a step answers that fault (R141). -/
theorem step_of_fault {s : State} {f : Fault} (h : s.fault = some f) : step s = .fault f := by
  simp only [step, h, raiseFault]

theorem step_of_fetch_error {s : State} {f : Fault} (hfault : s.fault = none) (hfetch : fetch s = .error f) :
    step s = .fault f := by
  simp only [step, hfault, hfetch, raiseFault]

/-- With no fault set, a fetched word that does not decode ends the step (R143). -/
theorem step_of_decode_error {s : State} {w : Word} {e : DecodeError} (hfault : s.fault = none)
    (hfetch : fetch s = .ok w) (hdecode : decodeWord w = .error e) :
    step s = .fault (.unrecognizedOpcode w s.pc) := by
  simp only [step, hfault, hfetch, hdecode, raiseFault]

/-- All a step can answer: a fault of its own, or what the instruction at the PC answers. -/
theorem step_fault_or_exec (s : State) : (∃ f, step s = .fault f) ∨ ∃ i, step s = exec i s := by
  cases hfault : s.fault with
  | some f => exact .inl ⟨f, step_of_fault hfault⟩
  | none =>
    cases hfetch : fetch s with
    | error f => exact .inl ⟨f, step_of_fetch_error hfault hfetch⟩
    | ok w =>
      cases hdecode : decodeWord w with
      | error e => exact .inl ⟨_, step_of_decode_error hfault hfetch hdecode⟩
      | ok i => exact .inr ⟨i, step_of_decode hfault hfetch hdecode⟩

/-- Settles O9: FETCH, DECODE and EXECUTE in turn. -/
theorem stepRunsTheDecodedInstruction : Obligations.StepRunsTheDecodedInstruction :=
  ⟨fun _ _ _ hfault hfetch hdecode _ => step_of_decode hfault hfetch hdecode,
    fun _ _ hfault hfetch => step_of_fetch_error hfault hfetch⟩

/-- Settles O4: R127's list is where the dispatch table has no row. -/
theorem illegalWordsFault : Obligations.IllegalWordsFault := by
  have hnone : ∀ w, illegalWord w = true ↔ decodeWord w = .error (.unrecognizedOpcode w) := fun w => by
    rw [illegalWord_true_iff]
    refine ⟨decodeWord_of_none, fun h => ?_⟩
    cases hd : decodeTable w with
    | none => rfl
    | some i => rw [decodeWord_of_some hd] at h; cases h
  refine ⟨hnone, fun w => ?_, fun s w hfault hfetch hw => ?_⟩
  · simp only [illegalWord_false_iff, decodeWord_ok_iff]
  · exact step_of_decode_error hfault hfetch ((hnone w).mp hw)

/-- No instruction answers a refusal: each answers a next state, or the answer of effects that may fault. -/
theorem exec_ne_refused (i : Instr) (s : State) (r : Refusal) : exec i s ≠ .refused r := by
  cases i with
  | ret | call nnn | drw x y n | ldBVx x | ldMemVx x | ldVxMem x => exact answerOf_map_ne_refused _ _ r
  | addIVx x =>
    simp only [exec, execAddIVx]
    split <;> exact nofun
  | ldVxK x =>
    simp only [exec, execLdVxK]
    split <;> exact nofun
  | _ => exact nofun

theorem step_ne_refused (s : State) (r : Refusal) : step s ≠ .refused r := by
  obtain ⟨f, hf⟩ | ⟨i, hi⟩ := step_fault_or_exec s
  · rw [hf]; exact nofun
  · rw [hi]; exact exec_ne_refused i s r

/-- Settles O13: no instruction is refused, and a step answers a fault or what an instruction answers. -/
theorem nothingIsRefused : Obligations.NothingIsRefused := ⟨exec_ne_refused, step_ne_refused⟩

/-! ### The outcome of a step and the host's step -/

theorem classOutcome_ne_fault (s : State) (c : RetireClass) (f : Fault) : classOutcome s c ≠ .fault f := by
  cases c with
  | waits =>
    simp only [classOutcome]
    split <;> exact nofun
  | _ => exact nofun

/-- The outcome is a fault exactly where the step answers that fault (R146). -/
theorem stepOutcome_fault_iff {s : State} {f : Fault} : stepOutcome s = .fault f ↔ step s = .fault f := by
  refine ⟨fun h => ?_, fun h => by simp only [stepOutcome, h]⟩
  cases hstep : step s with
  | next t =>
    obtain ⟨w, i, -, -, hfetch, hdecode, -⟩ := step_next hstep
    rw [stepOutcome_of_next hstep hfetch hdecode] at h
    exact absurd h (classOutcome_ne_fault s _ f)
  | fault g =>
    simp only [stepOutcome, hstep] at h
    rw [StepOutcome.fault.inj h]
  | refused r => exact absurd hstep (step_ne_refused s r)

/-- The host's step with FAULT set changes nothing (R141). -/
theorem stepPort_of_fault {s : State} {f : Fault} (h : s.fault = some f) (u : State) : stepPort u s = s := by
  simp only [stepPort, step_of_fault h, h, Option.isSome_some, if_true]

/-- The host's step that raises the first fault leaves the faulted state (R320). -/
theorem stepPort_of_first_fault {s : State} {f : Fault} (hfault : s.fault = none) (hstep : step s = .fault f)
    (u : State) : stepPort u s = State.faulted f u := by
  simp [stepPort, hstep, hfault]

/-- After a step that answers a fault, the first or a later one, FAULT holds it. -/
theorem stepPort_fault {s : State} {f : Fault} (hstep : step s = .fault f) (u : State) :
    (stepPort u s).fault = some f := by
  cases hfault : s.fault with
  | none => rw [stepPort_of_first_fault hfault hstep, State.faulted_fault]
  | some g =>
    rw [stepPort_of_fault hfault, hfault]
    rw [step_of_fault hfault] at hstep
    cases hstep
    rfl

/-- Settles O10: a step reads FAULT first. -/
theorem faultIsSticky : Obligations.FaultIsSticky := fun _ u _ h =>
  ⟨step_of_fault h, stepOutcome_fault_iff.mpr (step_of_fault h), stepPort_of_fault h u⟩

/-- Settles O11: the state after the first fault is the faulted one, whose FAULT is set, so that every later step finds
it. -/
theorem firstFaultIsRecorded : Obligations.FirstFaultIsRecorded := by
  intro s u f hfault hstep
  have hset : (stepPort u s).fault = some f := stepPort_fault hstep u
  have heq : stepPort u s = State.faulted f u := stepPort_of_first_fault hfault hstep u
  refine ⟨stepOutcome_fault_iff.mpr hstep, hset, ?_, fun hwf => ?_, ?_, stepPort_of_fault hset⟩
  · rw [heq]
    exact State.wf_faulted f u
  · rw [heq]
    exact State.faulted_of_wf hwf f
  · exact stepOutcome_fault_iff.mpr (step_of_fault hset)

/-- Settles O55, by induction on the bound: `run` goes on after every outcome but Halted and a fault. -/
theorem runEndsOnHaltOrFault : Obligations.RunEndsOnHaltOrFault := by
  intro u s t fuel o h
  induction fuel generalizing s with
  | zero => cases h
  | succ fuel ih =>
    simp only [runPort] at h
    split at h
    · cases h
      exact .inl rfl
    · rename_i f hf
      cases h
      exact .inr ⟨f, rfl, stepPort_fault (stepOutcome_fault_iff.mp hf) u⟩
    · exact ih _ h
    · exact ih _ h

/-- Settles O21: the zero word is HALT, whose answer is the state itself. -/
theorem haltChangesNothing : Obligations.HaltChangesNothing := by
  refine ⟨exec_halt, fun s hfault hfetch => ?_⟩
  have hstep : step s = .next s := (step_of_decode hfault hfetch decodeWord_zero).trans (exec_halt s)
  exact ⟨hstep, stepOutcome_of_next hstep hfetch decodeWord_zero⟩

/-! ### The PC and the timers by class -/

/-- RETIRE after an EXECUTE that left the PC and the timers alone (R145, R147). -/
theorem retired_retire {s u : State} (hpc : u.pc = s.pc) (hdt : u.dt = s.dt) (hst : u.st = s.st) :
    Retired s (retire u) := by
  refine ⟨?_, ?_, ?_⟩
  · rw [retire_pc, hpc]
  · rw [retire_dt, hdt, countDown_toNat]
  · rw [retire_st, hst, countDown_toNat]

/-- EXECUTE of an instruction of class A writes DT in LD_DT_VX alone and ST in LD_ST_VX alone; RETIRE then counts both
down (R147, R311, R312). -/
theorem exec_advance_timers {i : Instr} {s t : State} (hc : retireClass i = .advance) (h : exec i s = .next t) :
    ((∀ x, i ≠ .ldDtVx x) → t.dt = countDown s.dt) ∧ ((∀ x, i ≠ .ldStVx x) → t.st = countDown s.st) := by
  cases i with
  | halt | ret | jp nnn | call nnn | jpV0 nnn | ldVxK x => cases hc
  | ldDtVx x =>
    cases h
    exact ⟨fun hne => absurd rfl (hne x), fun _ => rfl⟩
  | ldStVx x =>
    cases h
    exact ⟨fun _ => rfl, fun hne => absurd rfl (hne x)⟩
  | seImm x nn | sneImm x nn | seReg x y | sneReg x y | skp x | sknp x =>
    cases h
    exact ⟨fun _ => congrArg countDown (skipIf_dt _ _), fun _ => congrArg countDown (skipIf_st _ _)⟩
  | addIVx x =>
    obtain ⟨-, rfl⟩ := execAddIVx_next h
    exact ⟨fun _ => rfl, fun _ => rfl⟩
  | drw x y n =>
    obtain ⟨r, -, rfl⟩ := answerOf_map_next h
    exact ⟨fun _ => rfl, fun _ => rfl⟩
  | ldBVx x | ldMemVx x =>
    obtain ⟨u, hu, rfl⟩ := answerOf_map_next h
    rw [writeBytes_ok hu]
    exact ⟨fun _ => rfl, fun _ => rfl⟩
  | ldVxMem x =>
    obtain ⟨bs, -, rfl⟩ := answerOf_map_next h
    rw [State.setVs_eq]
    exact ⟨fun _ => rfl, fun _ => rfl⟩
  | _ => cases h; exact ⟨fun _ => rfl, fun _ => rfl⟩

/-- An instruction of class P sets the PC itself and ticks no timer (R147). -/
theorem exec_setsPc_timers {i : Instr} {s t : State} (hc : retireClass i = .setsPc) (h : exec i s = .next t) :
    SameTimers s t := by
  cases i with
  | ret =>
    obtain ⟨r, hr, rfl⟩ := answerOf_map_next h
    obtain ⟨k, -, hlt, rfl⟩ := popStack_ok hr
    exact ⟨rfl, rfl⟩
  | call nnn =>
    obtain ⟨u, hu, rfl⟩ := answerOf_map_next h
    obtain ⟨hlt, rfl⟩ := pushStack_ok hu
    exact ⟨rfl, rfl⟩
  | jp nnn | jpV0 nnn => cases h; exact ⟨rfl, rfl⟩
  | _ => cases hc

theorem retireClass_halts_iff {i : Instr} : retireClass i = .halts ↔ i = .halt := by
  cases i <;> simp [retireClass]

theorem retireClass_waits_iff {i : Instr} : retireClass i = .waits ↔ ∃ x, i = .ldVxK x := by
  cases i <;> simp [retireClass]

/-- LD_VX_K with a key pending retires as an instruction of class A (R148). -/
theorem retired_ldVxK (s : State) (x : Reg) (b : Byte) : Retired s (retire ((s.setKey none).setV x b)) :=
  retired_retire rfl rfl rfl

/-- Settles O14, class by class. -/
theorem retireByClass : Obligations.RetireByClass := by
  intro i s t h
  refine ⟨fun hc => ⟨?_, ?_⟩, fun hc => exec_setsPc_timers hc h, fun hc => ?_, fun hc => ?_⟩
  · obtain ⟨u, rfl, hpc | ⟨hskip, hpc⟩⟩ := exec_advance hc h
    · exact .inl (by rw [retire_pc, hpc])
    · exact .inr ⟨hskip, by rw [retire_pc, hpc, BitVec.add_assoc]; rfl⟩
  · obtain ⟨hdt, hst⟩ := exec_advance_timers hc h
    exact ⟨fun hne => by rw [hdt hne, countDown_toNat], fun hne => by rw [hst hne, countDown_toNat]⟩
  · obtain rfl := retireClass_halts_iff.mp hc
    cases h
    rfl
  · obtain ⟨x, rfl⟩ := retireClass_waits_iff.mp hc
    obtain ⟨hkey, rfl⟩ | ⟨k, hkey, rfl⟩ := execLdVxK_next h
    · exact ⟨fun _ => rfl, fun hne => absurd hkey hne⟩
    · exact ⟨fun hn => absurd (hkey.symm.trans hn) nofun, fun _ => retired_ldVxK s x _⟩

/-! ### The key wait (R297) -/

theorem exec_ldVxK_of_key {s : State} {k : Key} (h : s.key = some k) (x : Reg) :
    exec (.ldVxK x) s = .next (retire ((s.setKey none).setV x (BitVec.ofNat 8 k.val))) := by
  simp only [exec, execLdVxK, takeKey, h]

theorem exec_ldVxK_of_none {s : State} (h : s.key = none) (x : Reg) : exec (.ldVxK x) s = .next s := by
  simp only [exec, execLdVxK, takeKey, h]

/-- Whether a key is pending or not, LD_VX_K answers a next state. -/
theorem exec_ldVxK_completes (s : State) (x : Reg) : ∃ t, exec (.ldVxK x) s = .next t := by
  cases hkey : s.key with
  | none => exact ⟨s, exec_ldVxK_of_none hkey x⟩
  | some k => exact ⟨_, exec_ldVxK_of_key hkey x⟩

theorem classOutcome_waits (s : State) : classOutcome s .waits = if s.key = none then .waiting else .continued := by
  cases h : s.key <;> simp [classOutcome, anyPressed, h]

/-- Settles O51: with a key pending the instruction retires, with none it answers the state itself; the outcome is that of
class W. -/
theorem keyWait : Obligations.KeyWait := by
  intro s x
  refine ⟨fun k hkey => ?_, fun hkey => exec_ldVxK_of_none hkey x, fun w hfault hfetch hdecode => ?_⟩
  · have h := exec_ldVxK_of_key hkey x
    refine ⟨_, h, ?_, rfl, retired_ldVxK s x _, (exec_framed h).toUnchanged⟩
    rw [getV_retire, State.getV_setV_self, BitVec.toNat_ofNat]
    exact Nat.mod_eq_of_lt (Nat.lt_trans k.isLt (by decide))
  · obtain ⟨t, ht⟩ := exec_ldVxK_completes s x
    have hstep : step s = .next t := (step_of_decode hfault hfetch hdecode).trans ht
    exact (stepOutcome_of_next hstep hfetch hdecode).trans (classOutcome_waits s)

end Sys2Proof.Machine
end

section
/-! PROOFS. Control transfer (spec/40_control.md R201 to R209): what CALL and RET answer with room on the stack and without,
where the jumps go, and what the skips have in common. -/

namespace Sys2Proof.Machine

/-! ### CALL and RET (R201, R202) -/

theorem exec_ret_of_succ {s : State} {k : Nat} (hlt : k < 16) (h : s.sp.val = k + 1) :
    exec .ret s = .next ((s.setStack s.stack ⟨k, Nat.lt_succ_of_lt hlt⟩).setPc s.stack[k]) := by
  simp only [exec, execRet, popStack_of_succ s hlt h, Except.map, retireJump_eq, answerOf_ok]

theorem exec_ret_of_empty {s : State} (h : s.sp.val = 0) : exec .ret s = .fault (.stackUnderflow s.pc) := by
  simp only [exec, execRet, popStack_empty s h, Except.map, answerOf_error]

theorem exec_call_of_lt {s : State} (h : s.sp.val < 16) (nnn : BitVec 12) :
    exec (.call nnn) s = .next ((s.setStack (s.stack.set s.sp.val (s.pc + 2)) ⟨s.sp.val + 1, Nat.succ_lt_succ h⟩).setPc
      (addrOperand nnn)) := by
  simp only [exec, execCall, pushStack_of_lt s _ h, Except.map, retireJump_eq, answerOf_ok]

theorem exec_call_of_full {s : State} (h : s.sp.val = 16) (nnn : BitVec 12) :
    exec (.call nnn) s = .fault (.stackOverflow s.pc) := by
  simp only [exec, execCall, pushStack_full s _ h, Except.map, answerOf_error]

/-- A CALL that completes had an entry free, and leaves its return address in that entry with SP one more. -/
theorem exec_call_next {s t : State} {nnn : BitVec 12} (h : exec (.call nnn) s = .next t) :
    ∃ hlt : s.sp.val < 16, t.stack = s.stack.set s.sp.val (s.pc + 2) ∧ t.sp.val = s.sp.val + 1 := by
  obtain ⟨u, hu, rfl⟩ := answerOf_map_next h
  obtain ⟨hlt, rfl⟩ := pushStack_ok hu
  exact ⟨hlt, rfl, rfl⟩

/-- Settles O24: the CALL's return address is the last entry in use, and RET takes the last entry in use. -/
theorem callThenRetReturns : Obligations.CallThenRetReturns := by
  rintro s t r nnn hcall ⟨hstack, hsp⟩
  obtain ⟨hlt, hpush, hdepth⟩ := exec_call_next hcall
  have htop : r.stack[s.sp.val] = s.pc + 2 := by simp only [hstack, hpush, Vector.getElem_set_self]
  exact ⟨_, exec_ret_of_succ hlt ((congrArg Fin.val hsp).trans hdepth), htop, rfl⟩

/-! ### Jump targets as numbers (R203, R208) -/

theorem addrOperand_toNat (nnn : BitVec 12) : (addrOperand nnn).toNat = nnn.toNat :=
  BitVec.toNat_setWidth_of_le (by decide)

theorem wideReg_toNat (s : State) (r : Reg) : (wideReg s r).toNat = (s.getV r).toNat :=
  BitVec.toNat_setWidth_of_le (by decide)

/-- The sum of 12 and of 8 bits fits 16 bits (R208). -/
theorem indexedTarget_toNat (s : State) (nnn : BitVec 12) :
    (indexedTarget s nnn).toNat = nnn.toNat + (s.getV 0).toNat := by
  have haddr := nnn.isLt
  have hbyte := (s.getV 0).isLt
  rw [indexedTarget, BitVec.toNat_add, addrOperand_toNat, wideReg_toNat]
  omega

/-! ### The instructions that set the PC -/

theorem exec_jp (s : State) (nnn : BitVec 12) : exec (.jp nnn) s = .next (s.setPc (addrOperand nnn)) := rfl

theorem exec_jpV0 (s : State) (nnn : BitVec 12) : exec (.jpV0 nnn) s = .next (s.setPc (indexedTarget s nnn)) := rfl

/-- Settles O22: with k + 1 entries in use the pop takes STACK[k], with none it faults. -/
theorem retPops : Obligations.RetPops := by
  refine fun s => ⟨fun k hlt hsp => ?_, exec_ret_of_empty⟩
  have h := exec_ret_of_succ hlt hsp
  exact ⟨_, h, rfl, rfl, rfl, exec_setsPc_timers rfl h, (exec_framed h).toUnchanged⟩

/-- Settles O23: below 16 entries the push stores PC + 2, with 16 it faults. -/
theorem callPushes : Obligations.CallPushes := by
  refine fun s nnn => ⟨fun hlt => ?_, fun hfull => exec_call_of_full hfull nnn⟩
  have h := exec_call_of_lt hlt nnn
  exact ⟨_, h, addrOperand_toNat nnn, rfl, rfl, exec_setsPc_timers rfl h, (exec_framed h).toUnchanged⟩

/-- Settles O25: the PC is the zero-extended address. -/
theorem jumpSetsPc : Obligations.JumpSetsPc := by
  intro s nnn
  have h := exec_jp s nnn
  exact ⟨_, h, addrOperand_toNat nnn, exec_setsPc_timers rfl h, (exec_framed h).toUnchanged⟩

/-- Settles O26: the 16-bit sum does not wrap. -/
theorem indexedJumpAddsV0 : Obligations.IndexedJumpAddsV0 := by
  intro s nnn
  have h := exec_jpV0 s nnn
  exact ⟨_, h, indexedTarget_toNat s nnn, indexedTarget_toNat_le s nnn, exec_setsPc_timers rfl h,
    (exec_framed h).toUnchanged⟩

/-! ### The skips (R204 to R207, R209) -/

/-- A skip's own 2 and RETIRE's 2. -/
theorem retire_skipIf_pc (c : Bool) (s : State) :
    (retire (skipIf c s)).pc = if c then s.pc + 4 else s.pc + 2 := by
  cases c with
  | false => rfl
  | true => exact BitVec.add_assoc s.pc 2 2

/-- An instruction that only skips on the condition `p`, and then retires. -/
theorem completesWith_skip {i : Instr} {s : State} {c : Bool} {p : Prop} [Decidable p] (hc : c = true ↔ p)
    (h : exec i s = .next (retire (skipIf c s))) :
    CompletesWith i s fun t =>
      t.pc = (if p then s.pc + 4 else s.pc + 2) ∧ TimersTicked s t ∧ Unchanged [] [] s t := by
  refine ⟨_, h, ?_, ⟨?_, ?_⟩, (Framed.refl.skipIf c).retire.toUnchanged⟩
  · simp only [retire_skipIf_pc, hc]
  · rw [retire_dt, skipIf_dt, countDown_toNat]
  · rw [retire_st, skipIf_st, countDown_toNat]

/-- Settles O27: the two skip on the immediate's being equal, and on its being different. -/
theorem skipsOnImmediate : Obligations.SkipsOnImmediate := fun _ _ _ =>
  ⟨completesWith_skip beq_iff_eq rfl, completesWith_skip bne_iff_ne rfl⟩

/-- Settles O28: as the skips on an immediate; with x = y the two registers hold the same byte. -/
theorem skipsOnRegister : Obligations.SkipsOnRegister := by
  refine fun s x y => ⟨?_, ?_⟩
  · obtain ⟨t, h, hpc, htimers, hframe⟩ := completesWith_skip (i := .seReg x y) (s := s) beq_iff_eq rfl
    exact ⟨t, h, hpc, fun hxy => hpc.trans (if_pos (congrArg s.getV hxy)), htimers, hframe⟩
  · obtain ⟨t, h, hpc, htimers, hframe⟩ := completesWith_skip (i := .sneReg x y) (s := s) bne_iff_ne rfl
    exact ⟨t, h, hpc, fun hxy => hpc.trans (if_neg (not_not_intro (congrArg s.getV hxy))), htimers, hframe⟩

end Sys2Proof.Machine
end

section
/-! PROOFS. Register loads, arithmetic, logic, shifts and random (spec/41_alu.md R220 to R235): what the instructions
that write one register have in common, what those that write a result and a flag have in common, and the flags and
results as numbers. -/

namespace Sys2Proof.Machine

/-! ### The two shapes of an ALU instruction -/

theorem CompletesWith.imp {i : Instr} {s : State} {P Q : State → Prop} (h : CompletesWith i s P)
    (hPQ : ∀ t, P t → Q t) : CompletesWith i s Q :=
  let ⟨t, ht, hP⟩ := h
  ⟨t, ht, hPQ t hP⟩

/-- An instruction that writes one register, and then retires. -/
theorem completesWith_setV {i : Instr} {s : State} {x : Reg} {b : Byte} (h : exec i s = .next (retire (s.setV x b))) :
    CompletesWith i s fun t => t.getV x = b ∧ Retired s t ∧ Unchanged (writtenElems i) (writtenRegs i) s t :=
  ⟨_, h, State.getV_setV_self s x b, retired_retire rfl rfl rfl, (exec_framed h).toUnchanged⟩

/-- An instruction that writes two registers, and then retires: the later write stands where both name one register
(R27, R233). The flag is the later write in ADD_REG, SUB and SUBN, the result in SHR and SHL. -/
theorem completesWith_setV_setV {i : Instr} {s : State} {q r : Reg} {c b : Byte}
    (h : exec i s = .next (retire ((s.setV q c).setV r b))) :
    CompletesWith i s fun t =>
      t.getV r = b ∧ (q ≠ r → t.getV q = c) ∧ Retired s t ∧ Unchanged (writtenElems i) (writtenRegs i) s t := by
  refine ⟨_, h, State.getV_setV_self _ r b, fun hne => ?_, retired_retire rfl rfl rfl, (exec_framed h).toUnchanged⟩
  rw [getV_retire, State.getV_setV_ne _ hne, State.getV_setV_self]

/-! ### The flags and the results as numbers (R226 to R230) -/

theorem carryFlag_eq (vx vy : Byte) : carryFlag vx vy = if 255 < vx.toNat + vy.toNat then 1 else 0 := by
  simp only [carryFlag, flagByte, decide_eq_true_eq]

theorem subFlag_eq (vx vy : Byte) : subFlag vx vy = if vx.toNat < vy.toNat then 0 else 1 := by
  simp only [subFlag, flagByte, decide_eq_true_eq, ← Nat.not_lt, ite_not]

/-- SUBN's flag is SUB's with the operands exchanged (R227, R229). -/
theorem subnFlag_eq (vx vy : Byte) : subnFlag vx vy = if vy.toNat < vx.toNat then 0 else 1 := subFlag_eq vy vx

theorem lowBitFlag_toNat (vx : Byte) : (lowBitFlag vx).toNat = vx.toNat % 2 := by
  rw [lowBitFlag, BitVec.toNat_and]
  exact Nat.and_one_is_mod vx.toNat

theorem highBitFlag_toNat (vx : Byte) : (highBitFlag vx).toNat = vx.toNat / 128 := by
  rw [highBitFlag, BitVec.toNat_ushiftRight, Nat.shiftRight_eq_div_pow]

/-- A number reduced modulo 256 is the number of the byte it makes. -/
theorem toNat_ofNat_mod (n : Nat) : (BitVec.ofNat 8 (n % 256)).toNat = n % 256 := by
  rw [BitVec.toNat_ofNat, Nat.mod_mod]

theorem borrowResult_toNat (vx vy : Byte) :
    (borrowResult vx vy).toNat = ((vy.toNat : Int) - vx.toNat + 1).natAbs % 256 := toNat_ofNat_mod _

/-- In the borrow case the source's expression is one less than the difference the other way round. -/
theorem borrowResult_toNat_of_lt {vx vy : Byte} (h : vy.toNat < vx.toNat) :
    (borrowResult vx vy).toNat = vx.toNat - vy.toNat - 1 := by
  rw [borrowResult_toNat]
  omega

theorem subResult_toNat (vx vy : Byte) :
    (subResult vx vy).toNat =
      if vx.toNat < vy.toNat then ((vy.toNat : Int) - vx.toNat + 1).natAbs % 256 else vx.toNat - vy.toNat := by
  unfold subResult
  split
  · exact borrowResult_toNat vx vy
  · rename_i hle
    exact BitVec.toNat_sub_of_le (BitVec.le_def.mpr (Nat.le_of_not_lt hle))

theorem subnResult_of_lt {vx vy : Byte} (h : vy.toNat < vx.toNat) : subnResult vx vy = borrowResult vx vy := if_pos h

theorem subnResult_toNat (vx vy : Byte) :
    (subnResult vx vy).toNat =
      if vy.toNat < vx.toNat then ((vy.toNat : Int) - vx.toNat + 1).natAbs % 256
      else ((vy.toNat : Int) - vx.toNat).natAbs % 256 := by
  unfold subnResult
  split
  · exact borrowResult_toNat vx vy
  · exact toNat_ofNat_mod _

theorem ushiftRight_one_toNat (vx : Byte) : (vx >>> 1).toNat = vx.toNat / 2 := by
  rw [BitVec.toNat_ushiftRight, Nat.shiftRight_eq_div_pow]

theorem shiftLeft_one_toNat (vx : Byte) : (vx <<< 1).toNat = vx.toNat * 2 % 256 := by
  rw [BitVec.toNat_shiftLeft, Nat.shiftLeft_eq]

/-! ### Subtraction (R227, R229) -/

/-- Settles O33: the result, then the flag. -/
theorem subtractWithSourceBorrow : Obligations.SubtractWithSourceBorrow := fun s x y =>
  (completesWith_setV_setV (i := .sub x y) (q := x) (r := 15) rfl).imp fun _ ⟨hflag, hresult, hretired, hframe⟩ =>
    ⟨fun hx => by rw [hresult hx, subResult_toNat], by rw [hflag, subFlag_eq], hretired, hframe⟩

/-- Settles O34: the result, then the flag. -/
theorem reverseSubtractWithSourceBorrow : Obligations.ReverseSubtractWithSourceBorrow := fun s x y =>
  (completesWith_setV_setV (i := .subn x y) (q := x) (r := 15) rfl).imp fun _ ⟨hflag, hresult, hretired, hframe⟩ =>
    ⟨fun hx => by rw [hresult hx, subnResult_toNat],
      fun hx hlt => by rw [hresult hx, subnResult_of_lt hlt, borrowResult_toNat_of_lt hlt],
      by rw [hflag, subnFlag_eq], hretired, hframe⟩

/-! ### The random byte (R231, R235) -/

theorem exec_rnd (s : State) (x : Reg) (nn : Byte) :
    exec (.rnd x nn) s =
      .next (retire ((s.setDraws (s.draws + 1)).setV x (Config.randomByte s.draws &&& nn))) := rfl

/-- RND alone is said to write the random input. -/
theorem eq_rnd_of_random_mem {i : Instr} (h : .random ∈ writtenElems i) : ∃ x nn, i = .rnd x nn := by
  cases i with
  | rnd x nn => exact ⟨x, nn, rfl⟩
  | _ => simp [writtenElems] at h

/-- Settles O37: one byte is drawn and masked; that no other instruction draws one is part of its frame. -/
theorem randomByteIsMasked : Obligations.RandomByteIsMasked := by
  refine ⟨fun s x nn => ?_, fun i s t hne h => ?_⟩
  · have h := exec_rnd s x nn
    refine ⟨_, h, State.getV_setV_self _ x _, fun k hk => ?_, rfl, retired_retire rfl rfl rfl,
      (exec_framed h).toUnchanged⟩
    rw [getV_retire, State.getV_setV_self, BitVec.getLsbD_and, hk, Bool.and_false]
  · refine (exec_framed h).random fun hmem => ?_
    obtain ⟨x, nn, rfl⟩ := eq_rnd_of_random_mem hmem
    exact hne x nn rfl

/-! ### Loads, logic and addition (R220 to R226) -/

/-- Settles O29: each is one register write. -/
theorem registerLoads : Obligations.RegisterLoads := fun _ _ _ _ => ⟨completesWith_setV rfl, completesWith_setV rfl⟩

/-- Settles O30: the bit-vector operation, read bit by bit. -/
theorem logicBitByBit : Obligations.LogicBitByBit := by
  refine fun s x y => ⟨?_, ?_, ?_⟩
  · refine (completesWith_setV (i := .orReg x y) (x := x) rfl).imp fun t ⟨hresult, hkept⟩ => ⟨fun k _ => ?_, hkept⟩
    rw [hresult, BitVec.getLsbD_or]
  · refine (completesWith_setV (i := .andReg x y) (x := x) rfl).imp fun t ⟨hresult, hkept⟩ => ⟨fun k _ => ?_, hkept⟩
    rw [hresult, BitVec.getLsbD_and]
  · refine (completesWith_setV (i := .xorReg x y) (x := x) rfl).imp
      fun t ⟨hresult, hkept⟩ => ⟨fun k _ => ?_, fun hxy => ?_, hkept⟩
    · rw [hresult, BitVec.getLsbD_xor]
    · rw [hresult, hxy, BitVec.xor_self]
      rfl

/-- Settles O31: byte addition is modulo 256, and VF is in the frame. -/
theorem addImmediateWraps : Obligations.AddImmediateWraps := fun s x nn =>
  (completesWith_setV (i := .addImm x nn) (x := x) rfl).imp fun _ ⟨hresult, hretired, hframe⟩ =>
    ⟨by rw [hresult, BitVec.toNat_add], fun hx => hframe.regs 15 (mt List.mem_singleton.mp hx.symm), hretired, hframe⟩

/-- Settles O32: the sum, then the carry. -/
theorem addRegisterCarries : Obligations.AddRegisterCarries := fun s x y =>
  (completesWith_setV_setV (i := .addReg x y) (q := x) (r := 15) rfl).imp fun _ ⟨hflag, hresult, hretired, hframe⟩ =>
    ⟨fun hx => by rw [hresult hx, BitVec.toNat_add], by rw [hflag, carryFlag_eq], hretired, hframe⟩

/-! ### Shifts (R228, R230) -/

/-- Settles O35: the flag, then the result. -/
theorem shiftRight : Obligations.ShiftRight := fun s x y =>
  (completesWith_setV_setV (i := .shr x y) (q := 15) (r := x) rfl).imp fun _ ⟨hresult, hflag, hretired, hframe⟩ =>
    ⟨by rw [hresult, ushiftRight_one_toNat], fun hx => by rw [hflag hx.symm, lowBitFlag_toNat], hretired, hframe⟩

/-- Settles O36: the flag, then the result. -/
theorem shiftLeft : Obligations.ShiftLeft := fun s x y =>
  (completesWith_setV_setV (i := .shl x y) (q := 15) (r := x) rfl).imp fun _ ⟨hresult, hflag, hretired, hframe⟩ =>
    ⟨by rw [hresult, shiftLeft_one_toNat], fun hx => by rw [hflag hx.symm, highBitFlag_toNat], hretired, hframe⟩

end Sys2Proof.Machine
end

section
/-! PROOFS. The index register and memory transfers (spec/42_index_memory.md R250 to R256): what the two stores and the two
index loads have in common, what a run of bytes at I holds after a store, and which registers a load fills. -/

namespace Sys2Proof.Machine

/-! ### Stores at I (R253, R254) -/

section
variable {i : Instr} {s : State} {bs : List Byte}
  (hexec : exec i s = answerOf ((writeBytes s (indexAddr s 0) bs).map retire))
include hexec

/-- An instruction that stores a run of bytes from I on, where the run fits. -/
theorem completesWith_store (hwf : Memory.wf s.mem = true) (hfit : indexAddr s 0 + bs.length ≤ 4096) :
    CompletesWith i s fun t =>
      (∀ k, k < bs.length → Memory.read t.mem (indexAddr s k) = bs.getD k 0) ∧
        SameMemoryBut (indexAddr s 0) bs.length s t ∧ Retired s t ∧ Unchanged (writtenElems i) (writtenRegs i) s t := by
  have hnext : exec i s = .next (retire (s.setMem (placeBytes s.mem (indexAddr s 0) bs))) := by
    rw [hexec, writeBytes_fits s _ bs hfit]
    rfl
  refine ⟨_, hnext, fun k hk => ?_, fun b hb => ?_, retired_retire rfl rfl rfl, (exec_framed hnext).toUnchanged⟩
  · rw [retire_mem, State.setMem_mem, Memory.read_placeBytes hwf _ _ hfit]
    simp [indexAddr, hk]
  · exact Memory.read_placeBytes_outside hwf _ _ hb

/-- An instruction that stores a run of bytes from I on, where the run does not fit (R95). -/
theorem exec_store_overruns (hne : 0 < bs.length) (hover : 4096 < indexAddr s 0 + bs.length) :
    exec i s = .fault (.memoryOutOfRange (max (indexAddr s 0) 4096)) := by
  rw [hexec, writeBytes_overruns s _ bs hne hover]
  rfl

end

theorem toNat_ofNat_of_lt {n : Nat} (h : n < 256) : (BitVec.ofNat 8 n).toNat = n := by
  rw [BitVec.toNat_ofNat, Nat.mod_eq_of_lt h]

/-- Settles O40: the three bytes stored are the digits, each below 256. -/
theorem decimalDigitsStored : Obligations.DecimalDigitsStored := by
  refine fun s x hwf => ⟨fun hlt => ?_, fun hge => ?_⟩
  · refine (completesWith_store (bs := decimalDigits (s.getV x)) rfl hwf hlt).imp fun t ⟨hbytes, hkept⟩ => ?_
    have hbyte := (s.getV x).isLt
    have hhundreds := congrArg BitVec.toNat (hbytes 0 (show 0 < 3 by decide))
    have htens := congrArg BitVec.toNat (hbytes 1 (show 1 < 3 by decide))
    have hones := congrArg BitVec.toNat (hbytes 2 (show 2 < 3 by decide))
    exact ⟨hhundreds.trans (toNat_ofNat_of_lt (by omega)), htens.trans (toNat_ofNat_of_lt (by omega)),
      hones.trans (toNat_ofNat_of_lt (by omega)), hkept⟩
  · exact exec_store_overruns (bs := decimalDigits (s.getV x)) rfl (Nat.succ_pos 2) (Nat.lt_succ_of_le hge)

/-- Settles O41: byte r of the run stored is Vr. -/
theorem registersStored : Obligations.RegistersStored := by
  refine fun s x hwf => ⟨fun hlt => ?_, fun hge => ?_⟩
  · have hfit : indexAddr s 0 + (regsUpTo s x).length ≤ 4096 := by rw [regsUpTo_length]; exact hlt
    have hstore := completesWith_store (i := .ldMemVx x) rfl hwf hfit
    rw [regsUpTo_length] at hstore
    refine hstore.imp fun t ⟨hbytes, hkept⟩ => ⟨fun r hr => ?_, hkept⟩
    rw [hbytes r.val (Nat.lt_succ_of_le hr)]
    exact (regsUpTo_getD s x r.val 0).trans (dif_pos hr)
  · refine exec_store_overruns (bs := regsUpTo s x) rfl ?_ ?_ <;> rw [regsUpTo_length]
    · exact x.val.succ_pos
    · exact Nat.lt_succ_of_le hge

/-! ### The load from I (R255) -/

/-- A run of registers from V0 on, filled from a run of addresses. -/
theorem State.getV_setVs_range' (s : State) (f : Nat → Byte) (a k : Nat) (r : Reg) :
    (s.setVs 0 ((List.range' a k).map f)).getV r = if r.val < k then f (a + r.val) else s.getV r := by
  rw [State.getV_setVs, if_pos (Nat.zero_le _), Nat.sub_zero, List.getD_eq_getElem?_getD]
  by_cases h : r.val < k
  · simp [h]
  · simp [h]

theorem exec_ldVxMem_of_fits {s : State} {x : Reg} (hlt : s.i.toNat + x.val < 4096) :
    exec (.ldVxMem x) s =
      .next (retire (s.setVs 0 ((List.range' (indexAddr s 0) (x.val + 1)).map (Memory.read s.mem)))) := by
  simp only [exec, execLdVxMem, readBytes_fits s (indexAddr s 0) (x.val + 1) hlt, Except.map, answerOf_ok]

theorem exec_ldVxMem_of_overruns {s : State} {x : Reg} (hge : 4096 ≤ s.i.toNat + x.val) :
    exec (.ldVxMem x) s = .fault (.memoryOutOfRange (max s.i.toNat 4096)) := by
  simp only [exec, execLdVxMem,
    readBytes_overruns s (indexAddr s 0) (x.val + 1) x.val.succ_pos (Nat.lt_succ_of_le hge), Except.map, answerOf_error]
  rfl

theorem retired_retire_setVs (s : State) (k : Nat) (bs : List Byte) : Retired s (retire (s.setVs k bs)) := by
  rw [State.setVs_eq]
  exact retired_retire rfl rfl rfl

/-- Settles O42: register r of the run filled is byte I + r. -/
theorem registersLoaded : Obligations.RegistersLoaded := by
  refine fun s x => ⟨fun hlt => ?_, exec_ldVxMem_of_overruns⟩
  have hnext := exec_ldVxMem_of_fits hlt
  refine ⟨_, hnext, fun r hr => ?_, fun r hr => ?_, retired_retire_setVs s _ _, (exec_framed hnext).toUnchanged⟩
  · rw [getV_retire, State.getV_setVs_range', if_pos (Nat.lt_succ_of_le hr)]
    rfl
  · rw [getV_retire, State.getV_setVs_range', if_neg (Nat.not_lt.mpr hr)]

/-- Settles O43: the store puts Vr at I + r and keeps I, and the load reads I + r into Vr. -/
theorem storeThenLoadRegisters : Obligations.StoreThenLoadRegisters := by
  intro s t q x hwf hstore hmem hindex
  obtain ⟨hfits, hoverruns⟩ := registersStored s x hwf
  have hlt : s.i.toNat + x.val < 4096 := by
    by_contra hge
    cases (hoverruns (Nat.le_of_not_lt hge)).symm.trans hstore
  obtain ⟨t', hnext, hbytes, -, -, hframe⟩ := hfits hlt
  cases hnext.symm.trans hstore
  have hi : q.i = s.i := hindex.trans (hframe.index (by decide))
  refine ((registersLoaded q x).1 (hi ▸ hlt)).imp fun p ⟨hregs, _⟩ r hr => ?_
  rw [hregs r hr, hmem, indexAddr, hi]
  exact hbytes r hr

/-! ### The index register (R250 to R252) -/

/-- An instruction that writes I alone, and then retires. -/
theorem completesWith_setI {i : Instr} {s : State} {w : Word} (h : exec i s = .next (retire (s.setI w))) :
    CompletesWith i s fun t => t.i = w ∧ Retired s t ∧ Unchanged (writtenElems i) (writtenRegs i) s t :=
  ⟨_, h, rfl, retired_retire rfl rfl rfl, (exec_framed h).toUnchanged⟩

/-- Five times a byte fits 16 bits (R252). -/
theorem wideReg_mul_five_toNat (s : State) (x : Reg) : (wideReg s x * 5#16).toNat = (s.getV x).toNat * 5 := by
  have hbyte := (s.getV x).isLt
  simp only [BitVec.toNat_mul, wideReg_toNat, BitVec.toNat_ofNat]
  omega

/-- Settles O38: the address as it stands, and the product, which does not wrap. -/
theorem indexLoads : Obligations.IndexLoads := fun s x nnn =>
  ⟨(completesWith_setI (i := .ldI nnn) rfl).imp fun _ ⟨hi, hkept⟩ => ⟨by rw [hi, addrOperand_toNat], hkept⟩,
    (completesWith_setI (i := .ldFVx x) rfl).imp fun _ ⟨hi, hkept⟩ =>
      ⟨(congrArg BitVec.toNat hi).trans (wideReg_mul_five_toNat s x), hkept⟩⟩

theorem indexFlag_eq (sum : Nat) : indexFlag sum = if 0xFFF < sum then 1 else 0 := by
  simp only [indexFlag, flagByte, decide_eq_true_eq]

theorem exec_addIVx_of_le {s : State} {x : Reg} (h : s.i.toNat + (s.getV x).toNat ≤ 0xFFFF) :
    exec (.addIVx x) s =
      .next (retire ((s.setVF (indexFlag (s.i.toNat + (s.getV x).toNat))).setI (s.i + wideReg s x))) :=
  if_neg (Nat.not_lt.mpr h)

theorem exec_addIVx_of_overflow {s : State} {x : Reg} (h : 0xFFFF < s.i.toNat + (s.getV x).toNat) :
    exec (.addIVx x) s = .fault (.indexOverflow (s.i.toNat + (s.getV x).toNat)) :=
  if_pos h

/-- Settles O39: where the sum fits 16 bits the word addition does not wrap; else the fault records it. -/
theorem addToIndex : Obligations.AddToIndex := by
  refine fun s x => ⟨fun hle => ?_, exec_addIVx_of_overflow⟩
  have hnext := exec_addIVx_of_le hle
  refine ⟨_, hnext, ?_, ?_, retired_retire rfl rfl rfl, (exec_framed hnext).toUnchanged⟩
  · rw [retire_i, State.setI_i, BitVec.toNat_add, wideReg_toNat, Nat.mod_eq_of_lt (Nat.lt_succ_of_le hle)]
  · rw [getV_retire, State.getV_setI, State.getV_setVF, if_pos rfl, indexFlag_eq]

end Sys2Proof.Machine
end

section
/-! PROOFS. The display (spec/43_display.md R270 to R281): the count of set pixels as a sum over the grid, what DRW answers
by what its loop answers, and how an access of a row that fails ends the loop. -/

namespace Sys2Proof.Machine

/-! ### The count of set pixels (R277) -/

/-- A sum along a list is the sum over its places. -/
theorem sum_map_eq_sum_range {α : Type} (l : List α) (f : α → Nat) (g : Nat → Nat)
    (hg : ∀ k (h : k < l.length), g k = f l[k]) : (l.map f).sum = ∑ k ∈ Finset.range l.length, g k := by
  rw [← Fin.sum_univ_fun_getElem, Finset.sum_range]
  exact Finset.sum_congr rfl fun k _ => (hg k k.isLt).symm

theorem count_true_eq_sum (l : List Bool) : l.count true = (l.map fun b => if b then 1 else 0).sum := by
  induction l with
  | nil => rfl
  | cons b l ih => cases b <;> simp [ih, Nat.add_comm]

theorem Display.pixel_of_lt (p : Display) {x y : Nat} (hx : x < 64) (hy : y < 32) : p.pixel x y = p[x][y] :=
  dif_pos ⟨hx, hy⟩

theorem Display.countSet_eq_sum (p : Display) :
    p.countSet = ∑ x ∈ Finset.range 64, ∑ y ∈ Finset.range 32, (if p.pixel x y then 1 else 0) := by
  unfold Display.countSet
  rw [sum_map_eq_sum_range p.toList _ fun x => ∑ y ∈ Finset.range 32, (if p.pixel x y then 1 else 0),
    Vector.length_toList]
  intro x hx
  rw [Vector.length_toList] at hx
  rw [count_true_eq_sum, Vector.getElem_toList,
    sum_map_eq_sum_range p[x].toList _ fun y => if p.pixel x y then 1 else 0, Vector.length_toList]
  intro y hy
  rw [Vector.length_toList] at hy
  rw [Vector.getElem_toList, p.pixel_of_lt hx hy]

theorem Display.countSet_le (p : Display) : p.countSet ≤ 2048 := by
  have hcol (x : Nat) : ∑ y ∈ Finset.range 32, (if p.pixel x y then 1 else 0) ≤ 32 :=
    (Finset.sum_le_card_nsmul _ _ 1 fun y _ => by split <;> decide).trans (by simp)
  rw [p.countSet_eq_sum]
  exact (Finset.sum_le_card_nsmul _ _ 32 fun x _ => hcol x).trans (by simp)

/-- Settles O45: each column's count is the sum of its pixels. -/
theorem setPixelCount : Obligations.SetPixelCount := fun p => ⟨p.countSet_eq_sum, p.countSet_le, fun _ _ => rfl⟩

/-! ### Clearing (R280) -/

theorem clearedDisplay_countSet : clearedDisplay.countSet = 0 := by
  simp [Display.countSet_eq_sum]

/-- Settles O44: the cleared display has every pixel 0, so its count is a sum of zeros. -/
theorem clearScreen : Obligations.ClearScreen := fun s =>
  have hnext : exec .cls s = .next (retire (s.setPix clearedDisplay)) := rfl
  ⟨_, hnext, fun x y _ _ => clearedDisplay_pixel x y, clearedDisplay_countSet, retired_retire rfl rfl rfl,
    (exec_framed hnext).toUnchanged⟩

/-! ### DRW by what its loop answers (R281) -/

section
variable {s : State} {x y : Reg} {n : Nat}

theorem exec_drw_of_ok {p : Display} {c : Bool}
    (h : drawRows s (s.getV x).toNat s.i.toNat (s.getV y).toNat n (s.pix, false) = .ok (p, c)) :
    exec (.drw x y n) s = .next (retire ((s.setPix p).setVF (collisionFlag c))) :=
  congrArg (fun e => answerOf (Except.map _ e)) h

theorem exec_drw_of_error {f : Fault}
    (h : drawRows s (s.getV x).toNat s.i.toNat (s.getV y).toNat n (s.pix, false) = .error f) :
    exec (.drw x y n) s = .fault f :=
  congrArg (fun e => answerOf (Except.map _ e)) h

/-- DRW completes only where every row can be drawn. -/
theorem spriteRowOk_of_exec_drw {t : State} (h : exec (.drw x y n) s = .next t) :
    ∀ r, r < n → spriteRowOk s.mem s.i.toNat (s.getV x).toNat (s.getV y).toNat r := by
  obtain ⟨⟨p, c⟩, hrows, -⟩ := answerOf_map_next h
  exact (drawRows_ok hrows).1

end

theorem collisionFlag_cases (c : Bool) : collisionFlag c = 0 ∨ collisionFlag c = 1 := by
  cases c
  · exact .inl rfl
  · exact .inr rfl

theorem collisionFlag_eq_one_iff (c : Bool) : collisionFlag c = 1 ↔ c = true := by
  cases c <;> decide

/-- Settles O46: the loop completes, with the pixels and the collisions that the compositor's law gives. -/
theorem spriteIsXored : Obligations.SpriteIsXored := by
  intro s x y n hok
  obtain ⟨⟨p, c⟩, hrows⟩ := drawRows_fits hok (s.pix, false)
  obtain ⟨-, hpix, hcoll⟩ := drawRows_ok hrows
  have hnext := exec_drw_of_ok hrows
  have hVF : (retire ((s.setPix p).setVF (collisionFlag c))).getV 15 = collisionFlag c := by
    rw [getV_retire, State.getV_setVF, if_pos rfl]
  refine ⟨_, hnext, hpix, ?_, ?_, retired_retire rfl rfl rfl, (exec_framed hnext).toUnchanged⟩
  · rw [hVF]
    exact collisionFlag_cases c
  · rw [hVF, collisionFlag_eq_one_iff, hcoll]
    simp only [Bool.false_eq_true, false_or]

/-- Settles O48: the second DRW has the operands of the first, so it flips the same pixels, found as the first left
them. -/
theorem drawingTwiceRestores : Obligations.DrawingTwiceRestores := by
  intro s t x y n hx hy hfirst
  have hok := spriteRowOk_of_exec_drw hfirst
  obtain ⟨t', hnext, hpix, -⟩ := spriteIsXored s x y n hok
  cases hnext.symm.trans hfirst
  have hframe := exec_framed hfirst
  have hmem : t.mem = s.mem := hframe.cells (by simp [writtenElems])
  have hi : t.i = s.i := hframe.index (by simp [writtenElems])
  have hVx : t.getV x = s.getV x := hframe.regs x (mt List.mem_singleton.mp hx)
  have hVy : t.getV y = s.getV y := hframe.regs y (mt List.mem_singleton.mp hy)
  have hsecond := spriteIsXored t x y n
  rw [hmem, hi, hVx, hVy] at hsecond
  refine (hsecond hok).imp fun q ⟨hpix', _, hVF, _⟩ => ⟨fun px py => ?_, hVF.trans ?_⟩
  · rw [hpix', hpix, Bool.xor_assoc, Bool.xor_self, Bool.xor_false]
  · refine exists_congr fun px => exists_congr fun py => and_congr_right fun hcovers => ?_
    rw [hpix, hcovers, Bool.xor_true, Bool.not_eq_true']

/-! ### The first failing access (R274, R325) -/

/-- Bits drawn in ascending order stop at the first 1 bit outside the grid. -/
theorem drawBits_first_out {byte : Byte} {x y b : Nat} {bs : List Nat} (hsorted : bs.Pairwise (· < ·)) (hmem : b ∈ bs)
    (hbit : spriteBit byte b = true) (hout : ¬(x + b < 64 ∧ y < 32))
    (hfirst : ∀ c, c < b → spriteBit byte c = true → x + c < 64 ∧ y < 32) (pc : Display × Bool) :
    drawBits byte x y bs pc = .error (.displayOutOfRange (x + b) y) := by
  induction bs generalizing pc with
  | nil => cases hmem
  | cons j bs ih =>
    obtain ⟨p, c⟩ := pc
    obtain ⟨hlt, hsorted⟩ := List.pairwise_cons.mp hsorted
    unfold drawBits
    rcases List.mem_cons.mp hmem with rfl | hmem
    · rw [if_pos hbit, toggle_of_out p hout]
    · split
      · rename_i hj
        obtain ⟨q, hq⟩ := toggle_of_in p (hfirst j (hlt b hmem) hj)
        rw [hq]
        exact ih hsorted hmem _
      · exact ih hsorted hmem _

theorem drawRow_first_out {byte : Byte} {x y b : Nat} (hb : b < 8) (hbit : spriteBit byte b = true)
    (hout : ¬(x + b < 64 ∧ y < 32)) (hfirst : ∀ c, c < b → spriteBit byte c = true → x + c < 64 ∧ y < 32)
    (pc : Display × Bool) : drawRow byte x y pc = .error (.displayOutOfRange (x + b) y) :=
  drawBits_first_out (by decide) (mem_bitIndices.mpr hb) hbit hout hfirst pc

theorem drawRows_succ {s : State} {a : Nat} (ha : a < 4096) (x y k : Nat) (pc : Display × Bool) :
    drawRows s x a y (k + 1) pc =
      (drawRow (Memory.read s.mem a) x y pc).bind (drawRows s x (a + 1) (y + 1) k) := by
  rw [drawRows, memRead_of_lt s ha]
  dsimp only
  cases drawRow (Memory.read s.mem a) x y pc <;> rfl

theorem spriteRowOk_succ (m : Memory) (a x y r : Nat) :
    spriteRowOk m (a + 1) x (y + 1) r = spriteRowOk m a x y (r + 1) := by
  unfold spriteRowOk
  rw [Nat.add_right_comm a, Nat.add_right_comm y]
  rfl

/-- A fault of DRW's loop from row `r` on, whatever has been drawn, is the loop's fault if the rows before `r` can be
drawn. -/
theorem drawRows_error_of_rest {s : State} {x a y r k : Nat} {f : Fault} (hok : ∀ q, q < r → spriteRowOk s.mem a x y q)
    (hrest : ∀ pc, drawRows s x (a + r) (y + r) k pc = .error f) (pc : Display × Bool) :
    drawRows s x a y (r + k) pc = .error f := by
  induction r generalizing a y pc with
  | zero => exact (Nat.zero_add k).symm ▸ hrest pc
  | succ r ih =>
    obtain ⟨ha, hgrid⟩ : a < 4096 ∧ rowInGrid (Memory.read s.mem a) x y := hok 0 r.succ_pos
    obtain ⟨pc', hrow⟩ := drawRow_fits hgrid pc
    rw [Nat.add_right_comm, drawRows_succ ha, hrow]
    refine ih (fun q hq => ?_) (fun pc => ?_) pc'
    · rw [spriteRowOk_succ]
      exact hok (q + 1) (Nat.succ_lt_succ hq)
    · rw [Nat.add_right_comm a, Nat.add_right_comm y]
      exact hrest pc

/-- Settles O47: the rows before row `r` are drawn, and row `r` fails at its byte, or at the bit that is the first
outside the grid. -/
theorem spriteFirstFailingAccess : Obligations.SpriteFirstFailingAccess := by
  intro s x y n r hr hok
  obtain ⟨k, rfl⟩ : ∃ k, n = r + (k + 1) := Nat.exists_eq_add_of_lt hr
  refine ⟨fun hge => ?_, fun hlt b hb hbit hout hfirst => ?_⟩
  · refine exec_drw_of_error (drawRows_error_of_rest hok (fun pc => ?_) _)
    rw [drawRows, memRead_of_ge s hge]
  · refine exec_drw_of_error (drawRows_error_of_rest hok (fun pc => ?_) _)
    rw [drawRows_succ hlt, drawRow_first_out hb hbit hout hfirst]
    rfl

end Sys2Proof.Machine
end

section
/-! PROOFS. The keypad (spec/44_keypad.md R290 to R296): the port operations case by case, and the two key skips by the
one comparison with the pending key. -/

namespace Sys2Proof.Machine

/-! ### The operations (R290 to R294) -/

theorem pressKey_of_lt {n : Nat} (h : n < 16) (s : State) : pressKey n s = (true, s.setKey (some ⟨n, h⟩)) := dif_pos h

theorem pressKey_of_ge {n : Nat} (h : 16 ≤ n) (s : State) : pressKey n s = (false, s) := dif_neg (Nat.not_lt.mpr h)

theorem wasPressed_iff {s : State} {n : Nat} : wasPressed s n = true ↔ ∃ j, s.key = some j ∧ j.val = n := by
  simp only [wasPressed, beq_iff_eq, Option.map_eq_some_iff]

theorem anyPressed_iff {s : State} : anyPressed s = true ↔ s.key ≠ none := Option.isSome_iff_ne_none

/-- Settles O52, operation by operation; a read through its port answers the state it was asked of. -/
theorem keypadOperations : Obligations.KeypadOperations := fun s k =>
  ⟨pressKey_of_lt k.isLt s, fun _ hge => pressKey_of_ge hge s, rfl, rfl, fun _ => wasPressed_iff, anyPressed_iff,
    fun _ _ => ⟨rfl, rfl⟩⟩

/-! ### The key skips (R295, R296) -/

/-- SKP clears the key, and skips on the comparison that `wasPressed` makes. -/
theorem exec_skp (s : State) (x : Reg) :
    exec (.skp x) s = .next (retire (skipIf (wasPressed s (s.getV x).toNat) (s.setKey none))) := rfl

theorem exec_sknp (s : State) (x : Reg) :
    exec (.sknp x) s = .next (retire (skipIf (!wasPressed s (s.getV x).toNat) s)) := rfl

/-- Settles O49: the key is cleared before the skip, so whether or not it matched. -/
theorem skipIfKeyConsumes : Obligations.SkipIfKeyConsumes := by
  intro s x
  have h := exec_skp s x
  obtain ⟨hdt, hst⟩ := exec_advance_timers rfl h
  refine ⟨_, h, ?_, ?_, ⟨?_, ?_⟩, (exec_framed h).toUnchanged⟩
  · simp only [retire_skipIf_pc, State.setKey_pc, wasPressed_iff]
  · rw [retire_key, skipIf_key, State.setKey_key]
  · rw [hdt nofun, countDown_toNat]
  · rw [hst nofun, countDown_toNat]

/-- Settles O50: a skip on the comparison's failing; the key is in its frame. -/
theorem skipIfNotKeyKeeps : Obligations.SkipIfNotKeyKeeps := by
  intro s x
  have hskips : (!wasPressed s (s.getV x).toNat) = true ↔ ¬∃ k, s.key = some k ∧ k.val = (s.getV x).toNat := by
    rw [Bool.not_eq_true', ← Bool.not_eq_true, wasPressed_iff]
  refine (completesWith_skip hskips (exec_sknp s x)).imp fun t ⟨hpc, htimers, hframe⟩ =>
    ⟨?_, hframe.key nofun, htimers, hframe⟩
  rw [hpc, ite_not]

end Sys2Proof.Machine
end

section
/-! PROOFS. The timer instructions (spec/45_timers.md R310 to R313): each is one write, and RETIRE counts down what the write
left in the timers. -/

namespace Sys2Proof.Machine

/-- RETIRE leaves each timer one less than the instruction's own write left it, and 0 at 0 (R147, R313). -/
theorem retire_dt_toNat (s : State) : (retire s).dt.toNat = s.dt.toNat - 1 := countDown_toNat s.dt

theorem retire_st_toNat (s : State) : (retire s).st.toNat = s.st.toNat - 1 := countDown_toNat s.st

theorem exec_ldVxDt (s : State) (x : Reg) : exec (.ldVxDt x) s = .next (retire (s.setV x s.dt)) := rfl

theorem exec_ldDtVx (s : State) (x : Reg) : exec (.ldDtVx x) s = .next (retire (s.setDt (s.getV x))) := rfl

theorem exec_ldStVx (s : State) (x : Reg) : exec (.ldStVx x) s = .next (retire (s.setSt (s.getV x))) := rfl

/-- Settles O53: DT is read before RETIRE counts down, and a timer is written before it. -/
theorem timerInstructions : Obligations.TimerInstructions := by
  refine fun s x => ⟨completesWith_setV (exec_ldVxDt s x), ?_, ?_⟩
  · have h := exec_ldDtVx s x
    exact ⟨_, h, retire_dt_toNat _, retire_st_toNat _, rfl, (exec_framed h).toUnchanged⟩
  · have h := exec_ldStVx s x
    exact ⟨_, h, retire_st_toNat _, retire_dt_toNat _, rfl, (exec_framed h).toUnchanged⟩

end Sys2Proof.Machine
end

section
/-! PROOFS. The faults of EXECUTE (spec/60_exceptions.md R320, R321): all that each shared operation can report when it
fails, and so all that an instruction can. -/

namespace Sys2Proof.Machine

/-! ### What a failing operation reports -/

/-- A fault out of effects that may fault is the fault they raise. -/
theorem answerOf_map_fault {α : Type} {e : Except Fault α} {g : α → State} {f : Fault}
    (h : answerOf (e.map g) = .fault f) : e = .error f := by
  cases e with
  | error x => cases h; rfl
  | ok a => cases h

theorem pushStack_error {s : State} {w : Word} {f : Fault} (h : pushStack s w = .error f) :
    f = .stackOverflow s.pc ∧ s.sp.val = 16 := by
  by_cases hlt : s.sp.val < 16
  · cases (pushStack_of_lt s w hlt).symm.trans h
  · have hfull : s.sp.val = 16 := Nat.eq_of_lt_succ_of_not_lt s.sp.isLt hlt
    cases (pushStack_full s w hfull).symm.trans h
    exact ⟨rfl, hfull⟩

theorem popStack_error {s : State} {f : Fault} (h : popStack s = .error f) :
    f = .stackUnderflow s.pc ∧ s.sp.val = 0 := by
  rcases hsp : s.sp.val with _ | k
  · cases (popStack_empty s hsp).symm.trans h
    exact ⟨rfl, rfl⟩
  · have hlt : k < 16 := Nat.lt_of_succ_lt_succ (hsp.symm.trans_lt s.sp.isLt)
    cases (popStack_of_succ s hlt hsp).symm.trans h

theorem memRead_error {s : State} {a : Nat} {f : Fault} (h : memRead s a = .error f) :
    f = .memoryOutOfRange a ∧ 4096 ≤ a := by
  by_cases ha : a < 4096
  · cases (memRead_of_lt s ha).symm.trans h
  · have hge := Nat.le_of_not_lt ha
    cases (memRead_of_ge s hge).symm.trans h
    exact ⟨rfl, hge⟩

/-- A run of byte reads fails only by not fitting, and at the first address past the end (R95). -/
theorem readBytes_error {s : State} {a k : Nat} {f : Fault} (h : readBytes s a k = .error f) :
    f = .memoryOutOfRange (max a 4096) := by
  by_cases hfit : a + k ≤ 4096
  · cases (readBytes_fits s a k hfit).symm.trans h
  · cases k with
    | zero => cases h
    | succ k =>
      cases (readBytes_overruns s a (k + 1) k.succ_pos (Nat.lt_of_not_le hfit)).symm.trans h
      rfl

/-- A run of byte writes fails only by not fitting, and at the first address past the end (R95). -/
theorem writeBytes_error {s : State} {a : Nat} {bs : List Byte} {f : Fault} (h : writeBytes s a bs = .error f) :
    f = .memoryOutOfRange (max a 4096) := by
  by_cases hfit : a + bs.length ≤ 4096
  · cases (writeBytes_fits s a bs hfit).symm.trans h
  · cases bs with
    | nil => cases h
    | cons b bs =>
      cases (writeBytes_overruns s a (b :: bs) bs.length.succ_pos (Nat.lt_of_not_le hfit)).symm.trans h
      rfl

theorem toggle_error {p : Display} {x y : Nat} {f : Fault} (h : Display.toggle p x y = .error f) :
    f = .displayOutOfRange x y ∧ (64 ≤ x ∨ 32 ≤ y) := by
  by_cases hin : x < 64 ∧ y < 32
  · obtain ⟨q, hq⟩ := toggle_of_in p hin
    cases hq.symm.trans h
  · cases (toggle_of_out p hin).symm.trans h
    exact ⟨rfl, by omega⟩

/-! ### What DRW's loop reports (R274, R281) -/

/-- The bits of a row fail only at a pixel outside the grid, in the row's own line. -/
theorem drawBits_error {byte : Byte} {x y : Nat} {bs : List Nat} {pc : Display × Bool} {f : Fault}
    (h : drawBits byte x y bs pc = .error f) : ∃ c, f = .displayOutOfRange c y ∧ (64 ≤ c ∨ 32 ≤ y) := by
  induction bs generalizing pc with
  | nil => cases h
  | cons b bs ih =>
    unfold drawBits at h
    split at h
    · split at h
      next htoggle =>
        cases h
        exact ⟨x + b, toggle_error htoggle⟩
      next => exact ih h
    · exact ih h

/-- The loop fails at a row's byte past the end of memory, or at a pixel outside the grid. -/
theorem drawRows_error {s : State} {x a y k : Nat} {pc : Display × Bool} {f : Fault}
    (h : drawRows s x a y k pc = .error f) :
    (∃ b, f = .memoryOutOfRange b ∧ 4096 ≤ b) ∨ ∃ c r, f = .displayOutOfRange c r ∧ (64 ≤ c ∨ 32 ≤ r) := by
  induction k generalizing a y pc with
  | zero => cases h
  | succ k ih =>
    unfold drawRows at h
    split at h
    next hread =>
      cases h
      exact .inl ⟨a, memRead_error hread⟩
    next =>
      split at h
      next hrow =>
        cases h
        obtain ⟨c, hc⟩ := drawBits_error hrow
        exact .inr ⟨c, y, hc⟩
      next => exact ih h

/-! ### What an instruction reports (R321) -/

theorem exec_addIVx_fault {s : State} {x : Reg} {f : Fault} (h : exec (.addIVx x) s = .fault f) :
    f = .indexOverflow (s.i.toNat + (s.getV x).toNat) ∧ 0xFFFF < s.i.toNat + (s.getV x).toNat := by
  by_cases hle : s.i.toNat + (s.getV x).toNat ≤ 0xFFFF
  · cases (exec_addIVx_of_le hle).symm.trans h
  · have hover := Nat.lt_of_not_le hle
    cases (exec_addIVx_of_overflow hover).symm.trans h
    exact ⟨rfl, hover⟩

/-- Settles O12: the instructions that can fault answer the fault of the one shared operation they run; every other one
answers a next state. -/
theorem faultKindsAndCauses : Obligations.FaultKindsAndCauses := by
  intro i s f h
  cases i with
  | call nnn =>
    obtain ⟨hf, hsp⟩ := pushStack_error (answerOf_map_fault h)
    exact .inl ⟨hf, ⟨nnn, rfl⟩, hsp⟩
  | ret =>
    obtain ⟨hf, hsp⟩ := popStack_error (answerOf_map_fault h)
    exact .inr (.inl ⟨hf, rfl, hsp⟩)
  | ldBVx x =>
    exact .inr (.inr (.inl ⟨_, writeBytes_error (answerOf_map_fault h), Nat.le_max_right _ _, .inr (.inl ⟨x, rfl⟩)⟩))
  | ldMemVx x =>
    exact .inr (.inr (.inl
      ⟨_, writeBytes_error (answerOf_map_fault h), Nat.le_max_right _ _, .inr (.inr (.inl ⟨x, rfl⟩))⟩))
  | ldVxMem x =>
    exact .inr (.inr (.inl
      ⟨_, readBytes_error (answerOf_map_fault h), Nat.le_max_right _ _, .inr (.inr (.inr ⟨x, rfl⟩))⟩))
  | drw x y n =>
    obtain ⟨a, hf, hge⟩ | ⟨c, r, hf, hout⟩ := drawRows_error (answerOf_map_fault h)
    · exact .inr (.inr (.inl ⟨a, hf, hge, .inl ⟨x, y, n, rfl⟩⟩))
    · exact .inr (.inr (.inr (.inl ⟨c, r, hf, hout, x, y, n, rfl⟩)))
  | addIVx x =>
    obtain ⟨hf, hover⟩ := exec_addIVx_fault h
    exact .inr (.inr (.inr (.inr ⟨_, hf, hover, x, rfl, rfl⟩)))
  | ldVxK x =>
    obtain ⟨t, hnext⟩ := exec_ldVxK_completes s x
    cases hnext.symm.trans h
  | _ => cases h

end Sys2Proof.Machine
end
